-- ==== Sys2Proof/Word.lean ====
section
/-! DEFINITION. The word and byte types of the core (spec/00_scope.md R4, R7): every register, memory cell and
address is a 16-bit word, and the console moves 8-bit bytes. -/

namespace Sys2Proof

/-- `WORD_BITS` = `ADDR_BITS` = 16 (R4). Sums of words are taken modulo 2^16 (R7). -/
abbrev Word := BitVec 16

/-- A console or image-file byte (R10, R232). -/
abbrev Byte := BitVec 8

/-- A general register's index, 0 to 7 (R20). -/
abbrev Reg := Fin 8

end Sys2Proof
end

