-- ==== Sys2Proof/Syntax.lean ====
section
/-! DEFINITION. The instructions: one constructor for each of the 19 rows of spec/opcode_table.json. A constructor holds
the fields its format names (spec/30_encoding.md R73 to R83) and nothing of the bits the decoder ignores (R84). -/

namespace Sys2Proof

/-- Immediates and offsets are kept as the raw bits of their field; their operand value is `sext_N` of them (R85). -/
inductive Instr where
  /-- BR: the mask `{n, z, p}` = instr[11:9], and PCoffset9 (R76, R120). -/
  | br (nzp : BitVec 3) (pcOffset9 : BitVec 9)
  /-- ADD, register mode (R73, R101). -/
  | addReg (dr sr1 sr2 : Reg)
  /-- ADD, immediate mode (R74, R102). -/
  | addImm (dr sr1 : Reg) (imm5 : BitVec 5)
  /-- LD (R80, R140). -/
  | ld (dr : Reg) (pcOffset9 : BitVec 9)
  /-- ST (R80, R144). -/
  | st (sr : Reg) (pcOffset9 : BitVec 9)
  /-- JSR (R78, R122). -/
  | jsr (pcOffset11 : BitVec 11)
  /-- JSRR (R79, R123). -/
  | jsrr (baseR : Reg)
  /-- AND, register mode (R73, R103). -/
  | andReg (dr sr1 sr2 : Reg)
  /-- AND, immediate mode (R74, R104). -/
  | andImm (dr sr1 : Reg) (imm5 : BitVec 5)
  /-- LDR (R81, R142). -/
  | ldr (dr baseR : Reg) (offset6 : BitVec 6)
  /-- STR (R81, R146). -/
  | str (sr baseR : Reg) (offset6 : BitVec 6)
  /-- RTI, not implemented by this core: always Fatal (R83, R183). -/
  | rti
  /-- NOT (R75, R105). -/
  | not (dr sr : Reg)
  /-- LDI (R80, R141). -/
  | ldi (dr : Reg) (pcOffset9 : BitVec 9)
  /-- STI, with STR's layout (R81, R145; spec/90_conflicts.md C2). -/
  | sti (sr baseR : Reg) (offset6 : BitVec 6)
  /-- JMP, of which RET is `JMP R7` (R77, R121). -/
  | jmp (baseR : Reg)
  /-- RES, the reserved opcode: always Fatal (R83, R182). -/
  | res
  /-- LEA (R80, R143). -/
  | lea (dr : Reg) (pcOffset9 : BitVec 9)
  /-- TRAP (R82, R170). -/
  | trap (trapvect8 : Byte)
  deriving DecidableEq, Repr

end Sys2Proof
end

