-- ==== Sys2Proof/WellFormed.lean ====
section
/-! DEFINITION. Well-formedness of an instruction. R85 gives each field a width and a range, and `Instr` types each field
by exactly that width, so a value out of range cannot be written down: every `Instr` is well-formed (log entry 36). What can
still be non-standard is a WORD, in its ignored bits: `standardWord` of Decode.lean checks those. -/

namespace Sys2Proof

/-- Every instruction is well-formed: its fields are exactly as wide as R85 says. -/
def Instr.wellFormed : Instr → Bool
  | .br _ _ | .addReg _ _ _ | .addImm _ _ _ | .ld _ _ | .st _ _ | .jsr _ | .jsrr _ => true
  | .andReg _ _ _ | .andImm _ _ _ | .ldr _ _ _ | .str _ _ _ | .rti | .not _ _ => true
  | .ldi _ _ | .sti _ _ _ | .jmp _ | .res | .lea _ _ | .trap _ => true

end Sys2Proof
end

