-- ==== Sys2Proof/Decode.lean ====
section
/-! DEFINITION. The decoder and the encoder (spec/30_encoding.md). Every instruction is one 16-bit word (R70), and all
65536 words decode (R87), so the decoder is a total function that rejects nothing. The opcode numbers and the field
positions are the spec's own choice D1, D2 (log entry 1). -/

namespace Sys2Proof

/-! ### Fields of an instruction word -/

/-- A register number from its three bits. -/
def regOfBits (b : BitVec 3) : Reg := b.toFin

/-- The three bits of a register number. -/
def regBits (r : Reg) : BitVec 3 := BitVec.ofFin r

/-- `instr[15:12]`, the opcode (R71). -/
def opcodeField (w : Word) : BitVec 4 := w.extractLsb' 12 4

/-- `instr[11:9]`: DR, or SR of a store, or the BR mask (R85). -/
def bits11to9 (w : Word) : BitVec 3 := w.extractLsb' 9 3

/-- `instr[8:6]`: SR1, SR of NOT, or BaseR (R85). -/
def bits8to6 (w : Word) : BitVec 3 := w.extractLsb' 6 3

/-- `instr[2:0]`: SR2 (R85). -/
def bits2to0 (w : Word) : BitVec 3 := w.extractLsb' 0 3

/-- `instr[5]`, the immediate-mode flag of ADD and AND (R71). -/
def immFlag (w : Word) : Bool := w.getLsbD 5

/-- `instr[11]`, the long flag of JSR and JSRR (R71). -/
def longFlag (w : Word) : Bool := w.getLsbD 11

/-- `instr[4:0]`: imm5 (R85). -/
def imm5Field (w : Word) : BitVec 5 := w.extractLsb' 0 5

/-- `instr[5:0]`: offset6 (R85). -/
def offset6Field (w : Word) : BitVec 6 := w.extractLsb' 0 6

/-- `instr[8:0]`: PCoffset9 (R85). -/
def pcOffset9Field (w : Word) : BitVec 9 := w.extractLsb' 0 9

/-- `instr[10:0]`: PCoffset11 (R85). -/
def pcOffset11Field (w : Word) : BitVec 11 := w.extractLsb' 0 11

/-- `instr[7:0]`: trapvect8 (R85). -/
def trapvect8Field (w : Word) : BitVec 8 := w.extractLsb' 0 8

/-- The register named by `instr[11:9]`. -/
def drField (w : Word) : Reg := regOfBits (bits11to9 w)

/-- The register named by `instr[8:6]`. -/
def srField (w : Word) : Reg := regOfBits (bits8to6 w)

/-- The register named by `instr[2:0]`. -/
def sr2Field (w : Word) : Reg := regOfBits (bits2to0 w)

/-! ### The decoder -/

/-- The decoder of R87, case by case on the opcode; the last case is the one opcode left, 0xF. -/
def decode (w : Word) : Instr :=
  if opcodeField w = 0x0#4 then .br (bits11to9 w) (pcOffset9Field w)
  else if opcodeField w = 0x1#4 then
    if immFlag w then .addImm (drField w) (srField w) (imm5Field w)
    else .addReg (drField w) (srField w) (sr2Field w)
  else if opcodeField w = 0x2#4 then .ld (drField w) (pcOffset9Field w)
  else if opcodeField w = 0x3#4 then .st (drField w) (pcOffset9Field w)
  else if opcodeField w = 0x4#4 then
    if longFlag w then .jsr (pcOffset11Field w) else .jsrr (srField w)
  else if opcodeField w = 0x5#4 then
    if immFlag w then .andImm (drField w) (srField w) (imm5Field w)
    else .andReg (drField w) (srField w) (sr2Field w)
  else if opcodeField w = 0x6#4 then .ldr (drField w) (srField w) (offset6Field w)
  else if opcodeField w = 0x7#4 then .str (drField w) (srField w) (offset6Field w)
  else if opcodeField w = 0x8#4 then .rti
  else if opcodeField w = 0x9#4 then .not (drField w) (srField w)
  else if opcodeField w = 0xA#4 then .ldi (drField w) (pcOffset9Field w)
  else if opcodeField w = 0xB#4 then .sti (drField w) (srField w) (offset6Field w)
  else if opcodeField w = 0xC#4 then .jmp (srField w)
  else if opcodeField w = 0xD#4 then .res
  else if opcodeField w = 0xE#4 then .lea (drField w) (pcOffset9Field w)
  else .trap (trapvect8Field w)

/-- The host's question: the instruction an instruction word of at most 16 bits stands for. Every such word has one. -/
def decodeTableWord (nbits w : Nat) : Option Instr :=
  if nbits ≤ 16 ∧ w < 2 ^ 16 then some (decode (BitVec.ofNat 16 w)) else none

/-! ### The encoder -/

/-- A field with its lowest bit at bit `lo` of the word, and zeros elsewhere. -/
def place {n : Nat} (f : BitVec n) (lo : Nat) : Word := f.setWidth 16 <<< lo

/-- The word of an instruction, field by field from R73 to R83, with the LC-3 assembler's values in the ignored bits (R84;
zeros for RES and RTI, for which R84 names none: log entry 36). -/
def encode : Instr → Word
  | .br nzp off => place 0x0#4 12 ||| place nzp 9 ||| place off 0
  | .addReg dr sr1 sr2 =>
    place 0x1#4 12 ||| place (regBits dr) 9 ||| place (regBits sr1) 6 ||| place (regBits sr2) 0
  | .addImm dr sr1 imm =>
    place 0x1#4 12 ||| place (regBits dr) 9 ||| place (regBits sr1) 6 ||| place 0b1#1 5 ||| place imm 0
  | .ld dr off => place 0x2#4 12 ||| place (regBits dr) 9 ||| place off 0
  | .st sr off => place 0x3#4 12 ||| place (regBits sr) 9 ||| place off 0
  | .jsr off => place 0x4#4 12 ||| place 0b1#1 11 ||| place off 0
  | .jsrr base => place 0x4#4 12 ||| place (regBits base) 6
  | .andReg dr sr1 sr2 =>
    place 0x5#4 12 ||| place (regBits dr) 9 ||| place (regBits sr1) 6 ||| place (regBits sr2) 0
  | .andImm dr sr1 imm =>
    place 0x5#4 12 ||| place (regBits dr) 9 ||| place (regBits sr1) 6 ||| place 0b1#1 5 ||| place imm 0
  | .ldr dr base off => place 0x6#4 12 ||| place (regBits dr) 9 ||| place (regBits base) 6 ||| place off 0
  | .str sr base off => place 0x7#4 12 ||| place (regBits sr) 9 ||| place (regBits base) 6 ||| place off 0
  | .rti => place 0x8#4 12
  | .not dr sr => place 0x9#4 12 ||| place (regBits dr) 9 ||| place (regBits sr) 6 ||| place 0b111111#6 0
  | .ldi dr off => place 0xA#4 12 ||| place (regBits dr) 9 ||| place off 0
  | .sti sr base off => place 0xB#4 12 ||| place (regBits sr) 9 ||| place (regBits base) 6 ||| place off 0
  | .jmp base => place 0xC#4 12 ||| place (regBits base) 6
  | .res => place 0xD#4 12
  | .lea dr off => place 0xE#4 12 ||| place (regBits dr) 9 ||| place off 0
  | .trap vect => place 0xF#4 12 ||| place vect 0

/-! ### The opcode table -/

/-- `OPCODE_OF`: the number of each opcode (R5, R72). -/
def Instr.opcode : Instr → BitVec 4
  | .br _ _ => 0x0
  | .addReg _ _ _ => 0x1
  | .addImm _ _ _ => 0x1
  | .ld _ _ => 0x2
  | .st _ _ => 0x3
  | .jsr _ => 0x4
  | .jsrr _ => 0x4
  | .andReg _ _ _ => 0x5
  | .andImm _ _ _ => 0x5
  | .ldr _ _ _ => 0x6
  | .str _ _ _ => 0x7
  | .rti => 0x8
  | .not _ _ => 0x9
  | .ldi _ _ => 0xA
  | .sti _ _ _ => 0xB
  | .jmp _ => 0xC
  | .res => 0xD
  | .lea _ _ => 0xE
  | .trap _ => 0xF

/-- One row of spec/opcode_table.json: a word is of the row when `word &&& mask = pattern` (spec/INDEX.md). `ignored` marks the
row's ignored bits and `standard` gives the assembler's value for them (R84). -/
structure TableRow where
  mnemonic : String
  mask : Word
  pattern : Word
  ignored : Word
  standard : Word
  deriving DecidableEq, Repr

/-- The 19 rows, in the table's order. -/
def opcodeTable : List TableRow :=
  [ ⟨"BR", 0xF000, 0x0000, 0x0000, 0x0000⟩,
    ⟨"ADD", 0xF020, 0x1000, 0x0018, 0x0000⟩,
    ⟨"ADD", 0xF020, 0x1020, 0x0000, 0x0000⟩,
    ⟨"LD", 0xF000, 0x2000, 0x0000, 0x0000⟩,
    ⟨"ST", 0xF000, 0x3000, 0x0000, 0x0000⟩,
    ⟨"JSR", 0xF800, 0x4800, 0x0000, 0x0000⟩,
    ⟨"JSRR", 0xF800, 0x4000, 0x063F, 0x0000⟩,
    ⟨"AND", 0xF020, 0x5000, 0x0018, 0x0000⟩,
    ⟨"AND", 0xF020, 0x5020, 0x0000, 0x0000⟩,
    ⟨"LDR", 0xF000, 0x6000, 0x0000, 0x0000⟩ ] ++
  [ ⟨"STR", 0xF000, 0x7000, 0x0000, 0x0000⟩,
    ⟨"RTI", 0xF000, 0x8000, 0x0FFF, 0x0000⟩,
    ⟨"NOT", 0xF000, 0x9000, 0x003F, 0x003F⟩,
    ⟨"LDI", 0xF000, 0xA000, 0x0000, 0x0000⟩,
    ⟨"STI", 0xF000, 0xB000, 0x0000, 0x0000⟩,
    ⟨"JMP", 0xF000, 0xC000, 0x0E3F, 0x0000⟩,
    ⟨"RES", 0xF000, 0xD000, 0x0FFF, 0x0000⟩,
    ⟨"LEA", 0xF000, 0xE000, 0x0000, 0x0000⟩,
    ⟨"TRAP", 0xF000, 0xF000, 0x0F00, 0x0000⟩ ]

/-- Is `w` a word of row `r`? -/
def TableRow.covers (r : TableRow) (w : Word) : Bool := w &&& r.mask == r.pattern

/-- The table row an instruction is of, by its place in `opcodeTable`. -/
def Instr.row : Instr → Fin 19
  | .br _ _ => 0
  | .addReg _ _ _ => 1
  | .addImm _ _ _ => 2
  | .ld _ _ => 3
  | .st _ _ => 4
  | .jsr _ => 5
  | .jsrr _ => 6
  | .andReg _ _ _ => 7
  | .andImm _ _ _ => 8
  | .ldr _ _ _ => 9
  | .str _ _ _ => 10
  | .rti => 11
  | .not _ _ => 12
  | .ldi _ _ => 13
  | .sti _ _ _ => 14
  | .jmp _ => 15
  | .res => 16
  | .lea _ _ => 17
  | .trap _ => 18

/-- Do the ignored bits of `w` hold the assembler's values (R84)? A word for which they do not is still the same
instruction: this is a check of its spelling only. -/
def standardWord (w : Word) : Bool :=
  opcodeTable.all fun r => !r.covers w || w &&& r.ignored == r.standard

end Sys2Proof
end

