-- ==== Sys2Proof/Machine/Bits.lean ====
section
/-! DEFINITION. Extension of fields and the bytes of a word (spec/00_scope.md R8, spec/20_memory.md R48). -/

namespace Sys2Proof.Machine

/-- `sext_N`: the field's top bit fills every higher bit (R8). The width N is the field's own. -/
def sext {n : Nat} (f : BitVec n) : Word := f.signExtend 16

/-- `zext_8`: a byte in bits 7:0, with zeros above it (R8). -/
def zext8 (b : Byte) : Word := b.setWidth 16

/-- `w[7:0]`. -/
def lowByte (w : Word) : Byte := w.extractLsb' 0 8

/-- `w[15:8]`. -/
def highByte (w : Word) : Byte := w.extractLsb' 8 8

/-- The word an image file spells as a most significant byte and then a least significant byte (R232). -/
def bigEndian (hi lo : Byte) : Word := hi ++ lo

end Sys2Proof.Machine
end

