-- ==== Sys2Proof/Config.lean ====
section
/-! DEFINITION. What one build of the core fixes and the spec leaves open. Every constant here is a FREE VALUE: it has
no body, so no proof can use a particular value of it (log entries 10, 15, 20, 32). -/

namespace Sys2Proof.Config

/-- `IN_PROMPT`, the byte string TRAP IN writes before it reads (R5, R177, D15). Free value, log entry 15. -/
opaque inPrompt : List Byte

/-- Whether the environment answers the n-th undictated keyboard poll with "ready" (R50, D10, K8): an environment draw.
It is asked only when `State.readyDraws` lists no further answer. Free value, log entry 10. -/
opaque pollReady : Nat → Bool

/-- The free integer behind `FATAL_EXIT_CODE` (R5, R207, D20). Free value, log entry 20. -/
opaque fatalExitSeed : Int

/-- `FATAL_EXIT_CODE`: some integer that is not 0, and any such integer (R207, K5). -/
def fatalExitCode : Int := if fatalExitSeed = 0 then 1 else fatalExitSeed

/-- The exit code of a process ended by an external break; no source states it (R207, K12). Free value, log entry 32. -/
opaque abortExitCode : Int

end Sys2Proof.Config
end

