-- ==== Sys2Proof/Machine/Flags.lean ====
section
/-! DEFINITION. The condition flags: their encodings (spec/10_state.md R26, log entry 2) and the flag-update logic
(spec/40_operate.md R100). -/

namespace Sys2Proof.Machine

/-- `FLAG_P`: the last defined value, read as signed, is greater than 0. -/
def flagP : BitVec 3 := 0b001#3

/-- `FLAG_Z`: the last defined value is 0. -/
def flagZ : BitVec 3 := 0b010#3

/-- `FLAG_N`: the last defined value has bit 15 set. -/
def flagN : BitVec 3 := 0b100#3

/-- What `setcc(v)` writes to `cond` (R100): the zero test first, then bit 15. -/
def flagOf (v : Word) : BitVec 3 :=
  if v = 0x0000#16 then flagZ else if v.getLsbD 15 then flagN else flagP

/-- BR's test: does the mask meet the current flag (R120)? -/
def branchTaken (nzp cond : BitVec 3) : Bool := nzp &&& cond != 0b000#3

end Sys2Proof.Machine
end

