-- ==== Sys2Proof/Machine/Memory.lean ====
section
/-! DEFINITION. The memory array (spec/20_memory.md R40 to R42): 65536 cells of one 16-bit word, and no smaller unit. It is a
list of (address, word) pairs in one canonical form, so that equal memories are equal data (log entry 30). -/

namespace Sys2Proof.Machine

/-- The listed cells, by strictly rising address. A cell that is not listed holds `Memory.unlisted`. -/
abbrev Memory := List (Nat × Word)

/-- What a cell that no entry lists reads as: `MEM_INIT` of the reset state. DESIGN CHOICE, unsafe: R31 and D6 leave
`MEM_INIT` open; any other `MEM_INIT` is a memory that lists its cells (log entry 5). -/
def Memory.unlisted : Word := 0x0000#16

/-- The canonical form from address `lo` on: strictly rising addresses below 65536, and no entry equal to what an
unlisted cell reads as. -/
def Memory.wfFrom (lo : Nat) : Memory → Bool
  | [] => true
  | (a, v) :: rest =>
    decide (lo ≤ a) && decide (a < 65536) && v != Memory.unlisted && Memory.wfFrom (a + 1) rest

/-- The canonical form. -/
def Memory.wf (m : Memory) : Bool := Memory.wfFrom 0 m

/-- The cell at address number `a`. -/
def Memory.cell : Memory → Nat → Word
  | [], _ => Memory.unlisted
  | (k, v) :: rest, a => if k = a then v else Memory.cell rest a

/-- `mem[a]`: the plain content of the cell, with no side effect. -/
def Memory.read (m : Memory) (a : Word) : Word := m.cell a.toNat

/-- Put `v` into the cell at address number `a`, keeping the canonical form: a cell that comes to hold what an unlisted
one reads as is no longer listed. -/
def Memory.put : Memory → Nat → Word → Memory
  | [], a, v => if v = Memory.unlisted then [] else [(a, v)]
  | (k, w) :: rest, a, v =>
    if a < k then (if v = Memory.unlisted then (k, w) :: rest else (a, v) :: (k, w) :: rest)
    else if a = k then (if v = Memory.unlisted then rest else (a, v) :: rest)
    else (k, w) :: Memory.put rest a v

/-- `mem[a] <- v`. -/
def Memory.write (m : Memory) (a v : Word) : Memory := m.put a.toNat v

/-- The memory whose cells are given by a list of (address, value) pairs, a later pair over an earlier one. -/
def Memory.ofCells (cells : List (Word × Word)) : Memory :=
  cells.foldl (fun m c => m.write c.1 c.2) []

end Sys2Proof.Machine
end

