-- ==== Sys2Proof/Machine/State.lean ====
section
/-! DEFINITION. The machine's state as plain data (spec/10_state.md R20 to R31), its value at reset (R31, R230), and the
reasons a step can stop. -/

namespace Sys2Proof.Machine

/-- Why the core is fatal (R200). The codes are the spec's own labels (D20). -/
inductive FatalCause where
  /-- `FATAL_RES` = 0xD: the opcode RES was fetched (R182). -/
  | res
  /-- `FATAL_RTI` = 0x8: the opcode RTI was fetched (R183). -/
  | rti
  deriving DecidableEq, Repr

/-- What Fatal records (R200). `pc` is already incremented: the word's own address is `pc - 1`. -/
structure FatalRecord where
  cause : FatalCause
  instr : Word
  pc : Word
  deriving DecidableEq, Repr

/-- Which blocking console read a blocked TRAP is in (R28, R50). -/
inductive Waiting where
  /-- GETC (R174). -/
  | getc
  /-- IN, its prompt already written (R177). -/
  | inEcho
  deriving DecidableEq, Repr

/-- How many characters a string word holds: one (PUTS, R176) or two (PUTSP, R178). -/
inductive StringForm where
  | puts
  | putsp
  deriving DecidableEq, Repr

/-- The run state (R28). -/
inductive RunState where
  /-- The core fetches instructions. -/
  | running
  /-- Terminal, after TRAP HALT. -/
  | halted
  /-- Terminal, after a RES or RTI word. -/
  | fatal (record : FatalRecord)
  /-- Terminal, after the host's external break. -/
  | aborted
  /-- Inside GETC or IN, until the environment supplies a byte: not terminal (R13, R28, R213). -/
  | blocked (waiting : Waiting)
  /-- Inside the step of a PUTS or PUTSP, about to read the word at `next`, where input may arrive (R180; log entry 18). No step
  ends here: it is entered and left read by read, by the host transitions of HostControl.lean alone. -/
  | printing (form : StringForm) (next : Word)
  deriving DecidableEq, Repr

/-- The console's mode (R31, R50). -/
inductive ConsoleMode where
  | original
  | raw
  deriving DecidableEq, Repr

/-- The whole state (R31). The last three fields are the model's own: see log entries 10 and 21. -/
structure State where
  /-- R0 to R7 (R20). -/
  regs : Vector Word 8
  /-- The program counter (R23). -/
  pc : Word
  /-- The 3-bit condition-flag register (R25). -/
  cond : BitVec 3
  /-- The memory, the two keyboard cells included (R40, R43). -/
  mem : Memory
  /-- `instr`, the instruction word last fetched (R30): each fetch replaces it, and only Fatal's record reads it (log entry 28). -/
  ir : Word
  /-- The run state (R28). -/
  run : RunState
  /-- Console input: the bytes the environment has supplied and no poll or read has consumed, the next one first (R50). -/
  input : List Byte
  /-- Console output: every byte written, oldest first (R50). -/
  output : List Byte
  /-- Whether the console is in raw mode (R30). -/
  mode : ConsoleMode
  /-- How many of the bytes of `output` were written before the last flush, and so have appeared (R50). -/
  flushed : Nat
  /-- The environment's answers to the next keyboard polls, where a claim or a test dictates them: `true` is "ready" (R50). -/
  readyDraws : List Bool
  /-- How many poll answers were drawn from the free value `Config.pollReady`. -/
  freePolls : Nat
  deriving DecidableEq, Repr

/-- `START_PC` (R4, R230). -/
def startPc : Word := 0x3000#16

/-- The state in which the first fetch is made (R31, R230), for every `GPR_RESET`, `COND_RESET` and memory that `MEM_INIT` and
the image loads may leave. The console is in raw mode: reset is the moment just before the first fetch (R236). -/
def State.resetWith (gprs : Vector Word 8) (cond : BitVec 3) (mem : Memory) : State where
  regs := gprs
  pc := startPc
  cond := cond
  mem := mem
  ir := 0x0000#16
  run := .running
  input := []
  output := []
  mode := .raw
  flushed := 0
  readyDraws := []
  freePolls := 0

/-- The machine right after reset, no image loaded. `pc` and the run state are the spec's; `cond` = `FLAG_Z` is D4 (log entry 3);
R0 to R7 = 0 and memory reading as 0 are the model's choice where R31 says OPEN (log entries 4 and 5). -/
def State.reset : State := State.resetWith (Vector.replicate 8 0x0000#16) flagZ []

/-- Why the machine does not step. All three are raised by `step` alone, when the run state is terminal: no further step
runs (R28, R181, R200, R206). Safe: the hardware executes nothing there either (log entry 26). -/
inductive Fault where
  /-- The run state is `Halted`. Safe. -/
  | alreadyHalted
  /-- The run state is `Fatal`. Safe. -/
  | alreadyFatal
  /-- The run state is `Aborted`. Safe. -/
  | alreadyAborted
  deriving DecidableEq, Repr

/-- Why the model has no meaning for an instruction. No arm of `exec` uses it: every instruction has its meaning. -/
inductive Refusal where
  /-- Raised by an arm of `exec` whose instruction has no meaning yet. Safe. -/
  | notModelled (mnemonic : String)
  deriving DecidableEq, Repr

/-- The outcome of one step or one instruction of this machine. -/
abbrev Result := Host.Outcome State Fault Refusal

end Sys2Proof.Machine
end

