-- ==== Sys2Proof/Machine/Ops.lean ====
section
/-! DEFINITION. The named operations on registers, flags, memory and console (spec/00_scope.md R9 to R11, spec/20_memory.md
R44 to R50), the fetch (spec/10_state.md R23), and the one exception of this core, Fatal (spec/60_exceptions.md R200).
There is no return from an exception beside it: the core has none (R205, R183). -/

namespace Sys2Proof.Machine

/-! ### Registers and flags -/

/-- `x[i]` (R9). -/
def State.reg (s : State) (r : Reg) : Word := s.regs[r.val]

/-- `x[i] <- v` (R9). No register is hardwired (R20). -/
def State.setReg (s : State) (r : Reg) (v : Word) : State := { s with regs := s.regs.set r.val v }

/-- `setcc(v)` (R100). -/
def State.setcc (s : State) (v : Word) : State := { s with cond := flagOf v }

/-- `x[DR] <- v` and then `setcc(x[DR])`, the way every flag-setting instruction ends (R27). -/
def State.define (s : State) (dr : Reg) (v : Word) : State := (s.setReg dr v).setcc v

/-- `pc <- t` (R9). -/
def State.setPc (s : State) (t : Word) : State := { s with pc := t }

/-! ### The console port (R50) -/

/-- One environment draw: does a poll find the console ready? A dictated answer if one is left, else the free value. -/
def State.drawReady (s : State) : Bool × State :=
  match s.readyDraws with
  | r :: rest => (r, { s with readyDraws := rest })
  | [] => (Config.pollReady s.freePolls, { s with freePolls := s.freePolls + 1 })

/-- `ConsolePoll()`: `none`, or the next unread byte, which it consumes. It never blocks, and it may answer `none` although
input exists (R50, D10). -/
def State.consolePoll (s : State) : Option Byte × State :=
  match s.drawReady with
  | (ready, s1) =>
    match ready, s1.input with
    | true, b :: rest => (some b, { s1 with input := rest })
    | true, [] => (none, s1)
    | false, _ => (none, s1)

/-- `ConsoleRead()`: the next unread byte, consumed; `none` when there is none to read and the routine must block. -/
def State.consoleRead (s : State) : Option (Byte × State) :=
  match s.input with
  | b :: rest => some (b, { s with input := rest })
  | [] => none

/-- `ConsoleWrite` of each byte of a list in turn. -/
def State.consoleWriteAll (s : State) (bs : List Byte) : State := { s with output := s.output ++ bs }

/-- `ConsoleWrite(b)`. -/
def State.consoleWrite (s : State) (b : Byte) : State := s.consoleWriteAll [b]

/-- `ConsoleFlush()`: every byte written so far appears; the output sequence is not changed (R50, C8). -/
def State.consoleFlush (s : State) : State := { s with flushed := s.output.length }

/-- `enter_raw_mode()` (R236). -/
def State.enterRawMode (s : State) : State := { s with mode := .raw }

/-! ### The memory port -/

/-- `KBSR_ADDR`, the keyboard status cell (R43, D7; log entry 6). -/
def kbsrAddr : Word := 0xFE00#16

/-- `KBDR_ADDR`, the keyboard data cell (R43, D7; log entry 6). -/
def kbdrAddr : Word := 0xFE02#16

/-- `MemWrite(a, 1, v)`: a plain store at every address, the keyboard cells included (R46). -/
def State.memWrite (s : State) (a v : Word) : State := { s with mem := s.mem.write a v }

/-- The refresh of the two keyboard cells that precedes a read of `KBSR_ADDR` (R44, D8). -/
def State.refreshKeyboard (s : State) : State :=
  match s.consolePoll with
  | (some b, s1) => (s1.memWrite kbsrAddr 0x8000#16).memWrite kbdrAddr (zext8 b)
  | (none, s1) => s1.memWrite kbsrAddr 0x0000#16

/-- `MemRead(a, 1)`: the word, and the state after its side effect (R44, R45). Fetches, loads, pointer reads and string reads
all go through it. -/
def State.memRead (s : State) (a : Word) : Word × State :=
  if a = kbsrAddr then (s.refreshKeyboard.mem.read a, s.refreshKeyboard) else (s.mem.read a, s)

/-! ### Fetch -/

/-- The fetch of R23: read the word at `pc`, then increment `pc` modulo 2^16, before anything is decoded. -/
def State.fetch (s : State) : State :=
  { (s.memRead s.pc).2 with ir := (s.memRead s.pc).1, pc := s.pc + 1 }

/-! ### The end of a run -/

/-- Put the core into a terminal run state. The host's `restore_mode()`, which follows on every exit path (R207), is part of
it (log entry 29). -/
def State.endRun (s : State) (r : RunState) : State := { s with run := r, mode := .original }

/-- `raise Fatal(opcode, instr, pc)` (R11, R200): the one exception. It records the cause, the word and the incremented `pc`, and
changes no register, flag or memory cell. -/
def raiseFatal (cause : FatalCause) (s : State) : Result :=
  .next (s.endRun (.fatal { cause := cause, instr := s.ir, pc := s.pc }))

end Sys2Proof.Machine
end

