-- ==== Sys2Proof/Machine/Operands.lean ====
section
/-! DEFINITION. The operand forms and addressing modes (spec/30_encoding.md R85, spec/42_load_store.md R147). `s.pc` is the
value after the fetch increment. Sums are taken modulo 2^16, and nothing is scaled. -/

namespace Sys2Proof.Machine

/-- PC-relative: `pc + sext_N(offset)` with N = 9 or 11. -/
def State.pcRelative {n : Nat} (s : State) (off : BitVec n) : Word := s.pc + sext off

/-- Base + offset: `x[BaseR] + sext_6(offset6)`. -/
def State.baseOffset (s : State) (base : Reg) (off : BitVec 6) : Word := s.reg base + sext off

end Sys2Proof.Machine
end

