-- ==== Sys2Proof/Machine/Control.lean ====
section
/-! DEFINITION. Control transfer (spec/41_control.md R120 to R123). No delay slots (R125). -/

namespace Sys2Proof.Machine

/-- R7, the link register (R22). -/
def linkReg : Reg := 7

/-- BR (R120). -/
def execBr (nzp : BitVec 3) (off : BitVec 9) (s : State) : Result :=
  .next (if branchTaken nzp s.cond then s.setPc (s.pcRelative off) else s)

/-- JMP, and RET as `JMP R7` (R121). -/
def execJmp (base : Reg) (s : State) : Result := .next (s.setPc (s.reg base))

/-- JSR (R122). -/
def execJsr (off : BitVec 11) (s : State) : Result :=
  .next ((s.setReg linkReg s.pc).setPc (s.pcRelative off))

/-- JSRR (R123): the base register is read AFTER R7 has been written, so `JSRR R7` goes on at the next instruction (D26, C3;
log entry 24). -/
def execJsrr (base : Reg) (s : State) : Result :=
  .next ((s.setReg linkReg s.pc).setPc ((s.setReg linkReg s.pc).reg base))

end Sys2Proof.Machine
end

