-- ==== Sys2Proof/Machine/LoadStore.lean ====
section
/-! DEFINITION. Loads, stores and LEA (spec/42_load_store.md R140 to R146). Every access is one `MemRead` or `MemWrite`, in the
order of spec/20_memory.md R47. -/

namespace Sys2Proof.Machine

/-- `x[DR] <- MemRead(ea, 1); setcc(x[DR])`: the way every load ends. -/
def State.loadFrom (s : State) (dr : Reg) (ea : Word) : State := (s.memRead ea).2.define dr (s.memRead ea).1

/-- LD (R140). -/
def execLd (dr : Reg) (off : BitVec 9) (s : State) : Result := .next (s.loadFrom dr (s.pcRelative off))

/-- LDI (R141): the pointer read first, then the data read. -/
def execLdi (dr : Reg) (off : BitVec 9) (s : State) : Result :=
  .next ((s.memRead (s.pcRelative off)).2.loadFrom dr (s.memRead (s.pcRelative off)).1)

/-- LDR (R142): BaseR is read before DR is written. -/
def execLdr (dr base : Reg) (off : BitVec 6) (s : State) : Result :=
  .next (s.loadFrom dr (s.baseOffset base off))

/-- LEA (R143): no memory access; it sets the flags. -/
def execLea (dr : Reg) (off : BitVec 9) (s : State) : Result := .next (s.define dr (s.pcRelative off))

/-- ST (R144). -/
def execSt (sr : Reg) (off : BitVec 9) (s : State) : Result :=
  .next (s.memWrite (s.pcRelative off) (s.reg sr))

/-- STI (R145): the pointer is read at base + offset6, and the store goes where it points. -/
def execSti (sr base : Reg) (off : BitVec 6) (s : State) : Result :=
  .next ((s.memRead (s.baseOffset base off)).2.memWrite (s.memRead (s.baseOffset base off)).1 (s.reg sr))

/-- STR (R146). -/
def execStr (sr base : Reg) (off : BitVec 6) (s : State) : Result :=
  .next (s.memWrite (s.baseOffset base off) (s.reg sr))

end Sys2Proof.Machine
end

