-- ==== Sys2Proof/Machine/Operate.lean ====
section
/-! DEFINITION. The operate instructions (spec/40_operate.md R101 to R105). Operands are read before DR is written. -/

namespace Sys2Proof.Machine

/-- ADD, register mode (R101). -/
def execAddReg (dr sr1 sr2 : Reg) (s : State) : Result := .next (s.define dr (s.reg sr1 + s.reg sr2))

/-- ADD, immediate mode (R102). -/
def execAddImm (dr sr1 : Reg) (imm5 : BitVec 5) (s : State) : Result :=
  .next (s.define dr (s.reg sr1 + sext imm5))

/-- AND, register mode (R103). -/
def execAndReg (dr sr1 sr2 : Reg) (s : State) : Result := .next (s.define dr (s.reg sr1 &&& s.reg sr2))

/-- AND, immediate mode (R104). -/
def execAndImm (dr sr1 : Reg) (imm5 : BitVec 5) (s : State) : Result :=
  .next (s.define dr (s.reg sr1 &&& sext imm5))

/-- NOT (R105). -/
def execNot (dr sr : Reg) (s : State) : Result := .next (s.define dr (~~~ s.reg sr))

end Sys2Proof.Machine
end

