-- ==== Sys2Proof/Machine/Trap.lean ====
section
/-! DEFINITION. TRAP and the trap dispatcher's routines (spec/43_trap.md R170 to R181), and the two opcodes with no implementation
(R182, R183). No routine writes `cond`, `pc` or R1 to R7 (R171, R172). -/

namespace Sys2Proof.Machine

/-- R0, the argument and result register of the routines (R22). -/
def argReg : Reg := 0

/-- The six routines of the dispatcher (R170). -/
inductive TrapRoutine where
  | getc
  | out
  | puts
  | inEcho
  | putsp
  | halt
  deriving DecidableEq, Repr

/-- The dispatcher's case on the vector; `none` for an unknown one (R170). -/
def trapRoutine (v : Byte) : Option TrapRoutine :=
  if v = 0x20#8 then some .getc
  else if v = 0x21#8 then some .out
  else if v = 0x22#8 then some .puts
  else if v = 0x23#8 then some .inEcho
  else if v = 0x24#8 then some .putsp
  else if v = 0x25#8 then some .halt
  else none

/-! ### GETC and IN -/

/-- What GETC and IN do with the byte `ConsoleRead` answers: IN echoes it; both put it in R0 (R174, R177). -/
def State.finishRead (s : State) (w : Waiting) (b : Byte) : State :=
  match w with
  | .getc => s.setReg argReg (zext8 b)
  | .inEcho => (s.consoleWrite b).setReg argReg (zext8 b)

/-- `b <- ConsoleRead()` and what follows it; blocked if no byte can be read (R50). -/
def State.awaitByte (s : State) (w : Waiting) : State :=
  match s.consoleRead with
  | some (b, s1) => s1.finishRead w b
  | none => { s with run := .blocked w }

/-- A blocked routine goes on: with a byte it completes and the core runs again, without one it waits (R28, R213). -/
def State.resumeRead (s : State) (w : Waiting) : State :=
  match s.consoleRead with
  | some (b, s1) => { s1.finishRead w b with run := .running }
  | none => s

/-! ### PUTS and PUTSP -/

/-- The bytes one nonzero string word writes: its low byte (R176), or its low byte and then its high byte if that is nonzero
(R178). -/
def StringForm.bytes (form : StringForm) (w : Word) : List Byte :=
  match form with
  | .puts => [lowByte w]
  | .putsp => if highByte w = 0x00#8 then [lowByte w] else [lowByte w, highByte w]

/-- The loop of R176 and R178 from address `a`, for at most `n` reads. -/
def State.stringLoop (form : StringForm) : Nat → Word → State → State
  | 0, _, s => s
  | n + 1, a, s =>
    if (s.memRead a).1 = 0x0000#16 then (s.memRead a).2
    else State.stringLoop form n (a + 1) ((s.memRead a).2.consoleWriteAll (form.bytes (s.memRead a).1))

/-- How many reads a string can make before it meets a zero word, with the input at hand: every 65536 reads contain one of KBSR,
which either consumes a byte or gives zero (R44, R179; log entry 18). -/
def State.readsAtHand (s : State) : Nat := 65536 * (s.input.length + 1)

/-- PUTS or PUTSP from address `a`, to its first zero word (R176, R178, R180). -/
def State.printString (s : State) (form : StringForm) (a : Word) : State :=
  State.stringLoop form s.readsAtHand a s

/-- A string under way goes on to its first zero word, and then the core runs again. -/
def State.resumePrint (s : State) (form : StringForm) (a : Word) : State :=
  { s.printString form a with run := .running }

/-! ### The routines -/

/-- GETC (R174). -/
def trapGetc (s : State) : State := s.awaitByte .getc

/-- OUT (R175). -/
def trapOut (s : State) : State := s.consoleWrite (lowByte (s.reg argReg))

/-- PUTS (R176). -/
def trapPuts (s : State) : State := s.printString .puts (s.reg argReg)

/-- IN (R177): prompt, read, echo, store. -/
def trapIn (s : State) : State := (s.consoleWriteAll Config.inPrompt).awaitByte .inEcho

/-- PUTSP (R178). -/
def trapPutsp (s : State) : State := s.printString .putsp (s.reg argReg)

/-- HALT (R181): flush, then `halt`. It writes no text (D16). -/
def trapHalt (s : State) : State := s.consoleFlush.endRun .halted

/-- TRAP (R170): run the routine the vector names; an unknown vector does nothing (R173). -/
def execTrap (v : Byte) (s : State) : Result :=
  match trapRoutine v with
  | some .getc => .next (trapGetc s)
  | some .out => .next (trapOut s)
  | some .puts => .next (trapPuts s)
  | some .inEcho => .next (trapIn s)
  | some .putsp => .next (trapPutsp s)
  | some .halt => .next (trapHalt s)
  | none => .next s

/-! ### Opcodes with no implementation -/

/-- RES (R182): Fatal, always. -/
def execRes (s : State) : Result := raiseFatal .res s

/-- RTI (R183): Fatal, always; no privilege check and no return from interrupt. -/
def execRti (s : State) : Result := raiseFatal .rti s

end Sys2Proof.Machine
end

