-- ==== Sys2Proof/Machine/Step.lean ====
section
/-! DEFINITION. One step (spec/00_scope.md R13, spec/10_state.md R23, R28): while the core is running, fetch, increment `pc`, decode,
execute. A blocked step, or one under way inside a string, goes on; a terminal run state takes no step. -/

namespace Sys2Proof.Machine

def step (s : State) : Host.Outcome State Fault Refusal :=
  match s.run with
  | .running => exec (decode s.fetch.ir) s.fetch
  | .blocked w => .next (s.resumeRead w)
  | .printing form a => .next (s.resumePrint form a)
  | .halted => .fault .alreadyHalted
  | .fatal _ => .fault .alreadyFatal
  | .aborted => .fault .alreadyAborted

/-- `s` with an instruction word placed where the next step fetches, and the core running. The word at `KBSR_ADDR` cannot be
placed, for the fetch itself refreshes it (R44, R53): there the fetch is moved to `START_PC`. Log entry 31. -/
def State.withFetchWord (s : State) (nbits w : Nat) : State :=
  { s with
    pc := if s.pc = kbsrAddr then startPc else s.pc
    run := .running
    mem := s.mem.write (if s.pc = kbsrAddr then startPc else s.pc) (BitVec.ofNat 16 (w % 2 ^ nbits)) }

end Sys2Proof.Machine
end

