-- ==== Sys2Proof/Machine/HostControl.lean ====
section
/-! DEFINITION. What the outside does to the core (spec/00_scope.md R12): console input, the poll answers of the environment, and
the external break (spec/60_exceptions.md R206). `step` never takes one of these transitions (log entries 22 and 33). A string
routine is also given read by read, so that input may arrive while it is under way (log entry 18). -/

namespace Sys2Proof.Machine

/-- The environment supplies one more input byte (R50). -/
def State.supply (s : State) (b : Byte) : State := { s with input := s.input ++ [b] }

/-- The environment settles one more poll answer in advance (R50). -/
def State.settleDraw (s : State) (ready : Bool) : State := { s with readyDraws := s.readyDraws ++ [ready] }

/-- The string routine an instruction calls, if it calls one (R176, R178). -/
def stringOf (i : Instr) : Option StringForm :=
  if i = .trap 0x22#8 then some .puts else if i = .trap 0x24#8 then some .putsp else none

/-- The core inside a string routine, about to read the word at `a` (log entry 18). -/
def State.atString (s : State) (form : StringForm) (a : Word) : State := { s with run := .printing form a }

/-- The step of a PUTS or PUTSP begun and not yet ended: the instruction is fetched, and no string word is read. `none` for a core
whose next instruction is neither (log entry 18). -/
def State.enterString (s : State) : Option State :=
  if s.run = .running then
    (stringOf (decode s.fetch.ir)).map fun form => s.fetch.atString form (s.fetch.reg argReg)
  else none

/-- One turn of the loop of R176 and R178 in a string under way: one read, and the routine ends or writes its bytes and goes on. -/
def State.stringRead (s : State) : Option State :=
  match s.run with
  | .printing form a =>
    if (s.memRead a).1 = 0x0000#16 then some { (s.memRead a).2 with run := .running }
    else some (((s.memRead a).2.consoleWriteAll (form.bytes (s.memRead a).1)).atString form (a + 1))
  | .running | .blocked _ | .halted | .fatal _ | .aborted => none

/-- `n` turns of the loop. -/
def State.stringReads : Nat → State → Option State
  | 0, s => some s
  | n + 1, s => s.stringRead.bind (State.stringReads n)

/-- The external break (R206): taken between steps of a running core, or while a step is blocked (R202).
It restores the console mode and ends the run; it writes no register and completes no routine. `none` where it is not available: a
string under way is a step that is not blocked, and runs to its end first (R202). -/
def State.externalBreak (s : State) : Option State :=
  match s.run with
  | .running => some (s.endRun .aborted)
  | .blocked _ => some (s.endRun .aborted)
  | .printing _ _ => none
  | .halted => none
  | .fatal _ => none
  | .aborted => none

/-- The process's exit code once the run has ended (R207): 0 after HALT. -/
def RunState.exitCode : RunState → Option Int
  | .halted => some 0
  | .fatal _ => some Config.fatalExitCode
  | .aborted => some Config.abortExitCode
  | .running => none
  | .blocked _ => none
  | .printing _ _ => none

/-- The code of a Fatal cause, which is the opcode (R200, D20). -/
def FatalCause.code : FatalCause → BitVec 4
  | .res => 0xD#4
  | .rti => 0x8#4

end Sys2Proof.Machine
end

