-- ==== Sys2Proof/Machine/Loader.lean ====
section
/-! DEFINITION. The image loader and the boot sequence (spec/70_reset_and_hazards.md R231 to R236). -/

namespace Sys2Proof.Machine

/-- Why an image does not load (R234). -/
inductive LoadError where
  /-- The file cannot be opened. -/
  | unreadable
  /-- The stream ends before the two origin bytes. -/
  | truncated
  deriving DecidableEq, Repr

/-- An image named on the command line: its name, and its bytes if the file can be opened. -/
structure ImageFile where
  name : String
  bytes : Option (List Byte)
  deriving DecidableEq, Repr

/-- Store the words of an image from address `a` on (R232, R233). Addresses wrap, a later word wins, and a final odd byte is
ignored (R234, D27; log entry 25). -/
def placeWords : Word → List Byte → Memory → Memory
  | a, hi :: lo :: rest, m => placeWords (a + 1) rest (m.write a (bigEndian hi lo))
  | _, [_], m => m
  | _, [], m => m

/-- Load one image into memory (R232 to R234). -/
def loadBytes (bytes : List Byte) (m : Memory) : Except LoadError Memory :=
  match bytes with
  | hi :: lo :: rest => .ok (placeWords (bigEndian hi lo) rest m)
  | [_] => .error .truncated
  | [] => .error .truncated

/-- Load one named image (R234). -/
def loadImage (f : ImageFile) (m : Memory) : Except LoadError Memory :=
  match f.bytes with
  | none => .error .unreadable
  | some bytes => loadBytes bytes m

/-- Load the images one after another into the same memory, stopping at the first that fails (R231, R235). The error names the
file. -/
def loadImages : List ImageFile → Memory → Except (String × LoadError) Memory
  | [], m => .ok m
  | f :: rest, m =>
    match loadImage f m with
    | .ok m1 => loadImages rest m1
    | .error e => .error (f.name, e)

/-- How the boot sequence ends (R231). -/
inductive Boot where
  /-- No image argument: a usage message, and no machine state is touched. -/
  | usage
  /-- An image failed: a message naming the file; the execute loop is not entered, and raw mode never was. -/
  | loadFailed (name : String) (error : LoadError)
  /-- The state in which the first fetch is made. -/
  | started (s : State)
  deriving DecidableEq, Repr

/-- The exit code of a boot that never starts the loop (R207, R231). -/
def Boot.exitCode : Boot → Option Int
  | .usage => some 2
  | .loadFailed _ _ => some 1
  | .started _ => none

/-- The machine as created at process start, before `enter_raw_mode()` (R230). -/
def State.created (gprs : Vector Word 8) (cond : BitVec 3) (mem : Memory) : State :=
  { State.resetWith gprs cond mem with mode := .original }

/-- The boot sequence (R231), for every `GPR_RESET`, `COND_RESET` and `MEM_INIT`. The origin of an image does not set `pc`
(R235). -/
def boot (gprs : Vector Word 8) (cond : BitVec 3) (memInit : Memory) (images : List ImageFile) : Boot :=
  match images with
  | [] => .usage
  | f :: rest =>
    match loadImages (f :: rest) memInit with
    | .ok m => .started (State.created gprs cond m).enterRawMode
    | .error (name, e) => .loadFailed name e

end Sys2Proof.Machine
end

