-- ==== Sys2Proof/Safety.lean ====
section
/-! DEFINITION. The terms claims are stated in: what an instruction changed and what it left alone, the machine's invariant, the
states a booted machine can reach, and which output an observer may rely on. -/

namespace Sys2Proof.Machine

/-! ### Frames -/

/-- Every general register but `d` is unchanged. -/
def OtherRegsSame (d : Reg) (s t : State) : Prop := ∀ r, r ≠ d → t.reg r = s.reg r

/-- Every general register is unchanged. -/
def RegsSame (s t : State) : Prop := ∀ r, t.reg r = s.reg r

/-- Every memory cell reads as before. -/
def MemSame (s t : State) : Prop := ∀ a, t.mem.read a = s.mem.read a

/-- Every memory cell but the two keyboard cells reads as before. -/
def PlainMemSame (s t : State) : Prop :=
  ∀ a, a ≠ kbsrAddr → a ≠ kbdrAddr → t.mem.read a = s.mem.read a

/-- What was written to the console, and its mode, are unchanged. -/
def OutputSame (s t : State) : Prop := t.output = s.output ∧ t.flushed = s.flushed ∧ t.mode = s.mode

/-- No console input was consumed and no poll answer drawn. -/
def InputSame (s t : State) : Prop :=
  t.input = s.input ∧ t.readyDraws = s.readyDraws ∧ t.freePolls = s.freePolls

/-- The fetched word and the run state are unchanged. -/
def ControlSame (s t : State) : Prop := t.ir = s.ir ∧ t.run = s.run

/-- Everything but the keyboard cells, the console input and the poll answers is unchanged: all that a `MemRead` may touch. -/
def SameButKeyboard (s t : State) : Prop :=
  RegsSame s t ∧ t.pc = s.pc ∧ t.cond = s.cond ∧ PlainMemSame s t ∧ OutputSame s t ∧ ControlSame s t

/-- The flag that matches a word's signed value (R100: "it matches the destination register's signed interpretation"). -/
def signFlag (v : Word) : BitVec 3 :=
  if v.toInt < 0 then flagN else if v.toInt = 0 then flagZ else flagP

/-- From `s` to `t`, `dr` was given the value `v`, `cond` the flag of `v`, and nothing else changed. -/
def Defines (dr : Reg) (v : Word) (s t : State) : Prop :=
  t.reg dr = v ∧ t.cond = signFlag v ∧ OtherRegsSame dr s t ∧ t.pc = s.pc ∧ MemSame s t ∧ OutputSame s t ∧
    InputSame s t ∧ ControlSame s t

/-- From `s` to `t`, the cell at `a` was given the value `v`, and nothing else changed. -/
def Stores (a v : Word) (s t : State) : Prop :=
  t.mem.read a = v ∧ (∀ b, b ≠ a → t.mem.read b = s.mem.read b) ∧ RegsSame s t ∧ t.pc = s.pc ∧ t.cond = s.cond ∧
    OutputSame s t ∧ InputSame s t ∧ ControlSame s t

end Sys2Proof.Machine

namespace Sys2Proof

open Machine

/-! ### Instruction classes -/

/-- The register a flag-setting instruction defines (R27): ADD, AND, NOT, LD, LDI, LDR and LEA have one, and no other instruction
sets flags. -/
def Instr.flagDest : Instr → Option Reg
  | .addReg dr _ _ => some dr
  | .addImm dr _ _ => some dr
  | .andReg dr _ _ => some dr
  | .andImm dr _ _ => some dr
  | .not dr _ => some dr
  | .ld dr _ => some dr
  | .ldi dr _ => some dr
  | .ldr dr _ _ => some dr
  | .lea dr _ => some dr
  | .br _ _ | .st _ _ | .jsr _ | .jsrr _ | .str _ _ _ | .rti | .sti _ _ _ | .jmp _ | .res | .trap _ => none

/-- The general register an instruction may write (R21): DR, R7 for JSR and JSRR, R0 for TRAP GETC and TRAP IN. -/
def Instr.regWritten : Instr → Option Reg
  | .jsr _ => some 7
  | .jsrr _ => some 7
  | .trap v => if v = 0x20#8 ∨ v = 0x23#8 then some 0 else none
  | .addReg dr _ _ => some dr
  | .addImm dr _ _ => some dr
  | .andReg dr _ _ => some dr
  | .andImm dr _ _ => some dr
  | .not dr _ => some dr
  | .ld dr _ => some dr
  | .ldi dr _ => some dr
  | .ldr dr _ _ => some dr
  | .lea dr _ => some dr
  | .br _ _ | .st _ _ | .str _ _ _ | .rti | .sti _ _ _ | .jmp _ | .res => none

/-- The instructions that may change `pc` after the increment (R24): BR, JMP, JSR and JSRR. -/
def Instr.movesPc : Instr → Bool
  | .br _ _ | .jmp _ | .jsr _ | .jsrr _ => true
  | .addReg _ _ _ | .addImm _ _ _ | .andReg _ _ _ | .andImm _ _ _ | .not _ _ => false
  | .ld _ _ | .ldi _ _ | .ldr _ _ _ | .lea _ _ | .st _ _ | .sti _ _ _ | .str _ _ _ => false
  | .rti | .res | .trap _ => false

/-- The address an instruction stores to, in the state after the fetch (R144 to R146); no other instruction stores (R47). -/
def Instr.storeAddr (i : Instr) (s : State) : Option Word :=
  match i with
  | .st _ off => some (s.pcRelative off)
  | .str _ base off => some (s.baseOffset base off)
  | .sti _ base off => some (s.memRead (s.baseOffset base off)).1
  | .br _ _ | .addReg _ _ _ | .addImm _ _ _ | .andReg _ _ _ | .andImm _ _ _ | .not _ _ => none
  | .ld _ _ | .ldi _ _ | .ldr _ _ _ | .lea _ _ | .jsr _ | .jsrr _ | .jmp _ => none
  | .rti | .res | .trap _ => none

end Sys2Proof

namespace Sys2Proof.Machine

/-! ### Strings -/

/-- A PUTS or PUTSP loop entered at address `a` in state `s` makes `n` reads, the last of them of a zero word, and leaves the
state `t` (the pseudocode of R176 and R178, as a relation). A string with no zero word has no such `n` and `t`. -/
inductive PrintsTo (form : StringForm) : Word → State → Nat → State → Prop
  | stop {a : Word} {s : State} (zero : (s.memRead a).1 = 0x0000#16) : PrintsTo form a s 1 (s.memRead a).2
  | more {a : Word} {s t : State} {n : Nat} (nonzero : (s.memRead a).1 ≠ 0x0000#16)
      (rest : PrintsTo form (a + 1) ((s.memRead a).2.consoleWriteAll (form.bytes (s.memRead a).1)) n t) :
      PrintsTo form a s (n + 1) t

/-! ### The invariant -/

/-- The core has not ended its run (R242): it fetches, is blocked, or is inside a string. -/
def RunState.live : RunState → Bool
  | .running | .blocked _ | .printing _ _ => true
  | .halted | .fatal _ | .aborted => false

/-- What holds of the machine at every step boundary, and inside a blocked step or a string under way. -/
structure Inv (s : State) : Prop where
  /-- Memory is in its canonical form. -/
  mem_canonical : s.mem.wf = true
  /-- `cond` holds exactly one of the three flags (R25). -/
  cond_one_hot : s.cond = flagN ∨ s.cond = flagZ ∨ s.cond = flagP
  /-- The console is in raw mode exactly while the run goes on (R207, R236). -/
  raw_while_live : s.mode = .raw ↔ s.run.live = true
  /-- No more output has been flushed than was written. -/
  flushed_le : s.flushed ≤ s.output.length
  /-- A halted core has flushed all its output (R181). -/
  halted_flushed : s.run = .halted → s.flushed = s.output.length
  /-- Fatal's record is of the word last fetched, whose opcode is the cause's code, and of `pc` (R200). -/
  fatal_record : ∀ r, s.run = .fatal r → opcodeField r.instr = r.cause.code ∧ r.instr = s.ir ∧ r.pc = s.pc

/-! ### The machine and its host -/

/-- What can happen next: a step, one of the host's transitions (R12), or a string routine read by read (R180; log entry 18). -/
inductive HostEvent where
  | step
  | supply (b : Byte)
  | settleDraw (ready : Bool)
  | enterString
  | stringRead
  | externalBreak
  deriving DecidableEq, Repr

/-- The event takes the machine from `s` to `t`. -/
def Transition (e : HostEvent) (s t : State) : Prop :=
  match e with
  | .step => step s = .next t
  | .supply b => t = s.supply b
  | .settleDraw ready => t = s.settleDraw ready
  | .enterString => s.enterString = some t
  | .stringRead => s.stringRead = some t
  | .externalBreak => s.externalBreak = some t

/-- Some sequence of events takes the machine from `s` to `t`. -/
inductive Follows (s : State) : State → Prop
  | refl : Follows s s
  | event {t u : State} (e : HostEvent) (before : Follows s t) (happens : Transition e t u) : Follows s u

/-- The states a booted machine can reach, whatever the images, the open reset values and the host's events. -/
inductive Reachable : State → Prop
  | boot {gprs : Vector Word 8} {cond : BitVec 3} {memInit : Memory} {images : List ImageFile} {s : State}
      (flag : cond = flagN ∨ cond = flagZ ∨ cond = flagP) (canonical : memInit.wf = true)
      (booted : boot gprs cond memInit images = .started s) : Reachable s
  | event {s t : State} (e : HostEvent) (before : Reachable s) (happens : Transition e s t) : Reachable t

/-! ### Observable output -/

/-- The output an observer of the terminal may have seen once the run has ended (R242, D21, K11): after HALT all of it; after a
Fatal or Aborted end, any first part of it that holds at least what was flushed. -/
def MayHaveAppeared (s : State) (seen : List Byte) : Prop :=
  match s.run with
  | .halted => seen = s.output
  | .fatal _ => seen <+: s.output ∧ s.flushed ≤ seen.length
  | .aborted => seen <+: s.output ∧ s.flushed ≤ seen.length
  | .running => False
  | .blocked _ => False
  | .printing _ _ => False

end Sys2Proof.Machine
end

