-- ==== Sys2Proof/Certificates/Slice0/Obligations.lean ====
section
/-! DEFINITION. The statements for the provers. `s` is the state `exec` is given: the one after the fetch, so that `s.pc` is the
instruction's address plus 1 (spec/10_state.md R23). Every `exec … = .next …` says that the instruction completes. -/

open Sys2Proof Sys2Proof.Machine

/-! ### Encoding -/

/-- R87, R84: decoding the word of any instruction, whatever its operands, gives the instruction back. The opcode numbers and
field positions are the spec's own choice (D1, D2; log entry 1). -/
def Obligations.DecodeOfEncodeGivesTheInstructionBack : Prop := ∀ i : Instr, decode (encode i) = i

/-- R84, D1, D2: a word whose ignored bits hold the assembler's values is the word the encoder gives for what it decodes to. For RES and
RTI, where R84 names no such value, zeros are the model's choice (log entry 36). -/
def Obligations.EncodeOfDecodeGivesAStandardWordBack : Prop :=
  ∀ w : Word, standardWord w = true → encode (decode w) = w

/-- R84: changing any of the bits a form ignores does not change the instruction (D11; log entry 11). -/
def Obligations.IgnoredBitsDoNotChangeTheInstruction : Prop :=
  ∀ r ∈ opcodeTable, ∀ w change : Word,
    r.covers w = true → change &&& ~~~ r.ignored = 0#16 → decode (w ^^^ change) = decode w

/-- R72, R87 and spec/INDEX.md: of the 19 rows of the opcode table, exactly the row of the decoded instruction covers a word.
The table's opcode numbers and field positions are the spec's own choice (D1, D2; log entry 1). -/
def Obligations.EveryWordIsOfExactlyItsTableRow : Prop :=
  opcodeTable.length = 19 ∧
    ∀ (w : Word) (k : Nat) (r : TableRow), opcodeTable[k]? = some r →
      (r.covers w = true ↔ (decode w).row.val = k)

/-- The example words of the instruction rules R101 to R183, each with the instruction it stands for there. A sanity statement. The
opcode numbers and field positions are the spec's own choice (D1, D2; log entry 1). -/
def Obligations.ExampleWordsDecodeAsTheSpecSays : Prop :=
  decode 0x1642#16 = .addReg 3 1 2 ∧ decode 0x1065#16 = .addImm 0 1 5 ∧ decode 0x5042#16 = .andReg 0 1 2 ∧
    decode 0x5070#16 = .andImm 0 1 (-16) ∧ decode 0x9D7F#16 = .not 6 5 ∧ decode 0x05FD#16 = .br 0b010 (-3) ∧
    decode 0xC080#16 = .jmp 2 ∧ decode 0x4810#16 = .jsr 16 ∧ decode 0x40C0#16 = .jsrr 3 ∧ decode 0x2405#16 = .ld 2 5 ∧
    decode 0xA602#16 = .ldi 3 2 ∧ decode 0x687E#16 = .ldr 4 1 (-2) ∧ decode 0xEBF8#16 = .lea 5 (-8) ∧
    decode 0x3403#16 = .st 2 3 ∧ decode 0xB281#16 = .sti 1 2 1 ∧ decode 0x719F#16 = .str 0 6 31 ∧
    decode 0xF021#16 = .trap 0x21#8 ∧ decode 0xDFFF#16 = .res ∧ decode 0x8000#16 = .rti

/-! ### Registers and flags -/

/-- R20, R9: a write to a general register, R0 to R7 alike, is read back, and changes nothing else. -/
def Obligations.RegisterWriteIsReadBackAndChangesNothingElse : Prop :=
  ∀ (s : State) (r : Reg) (v : Word), (s.setReg r v).reg r = v ∧ OtherRegsSame r s (s.setReg r v) ∧
    { s.setReg r v with regs := s.regs } = s

/-- R100: `setcc` gives Z for 0, N for a word with bit 15 set and P otherwise, reads nothing else and writes only `cond`; and each
of the flag-setting instructions leaves the flag of the value it has just written to DR. -/
def Obligations.FlagsFollowTheValueWrittenToTheDestination : Prop :=
  (∀ (s : State) (v : Word),
    (v = 0x0000#16 → s.setcc v = { s with cond := flagZ }) ∧
    (v.getLsbD 15 = true → s.setcc v = { s with cond := flagN }) ∧
    (v ≠ 0x0000#16 → v.getLsbD 15 = false → s.setcc v = { s with cond := flagP })) ∧
  (∀ (i : Instr) (dr : Reg) (s : State), i.flagDest = some dr →
    ∃ t, exec i s = .next t ∧ t.cond = (s.setcc (t.reg dr)).cond)

/-! ### Operate instructions -/

/-- R101. -/
def Obligations.AddRegisterGivesTheSum : Prop :=
  ∀ (dr sr1 sr2 : Reg) (s : State), ∃ t, exec (.addReg dr sr1 sr2) s = .next t ∧
    Defines dr (s.reg sr1 + s.reg sr2) s t

/-- R102. -/
def Obligations.AddImmediateGivesTheSum : Prop :=
  ∀ (dr sr1 : Reg) (imm5 : BitVec 5) (s : State), ∃ t, exec (.addImm dr sr1 imm5) s = .next t ∧
    Defines dr (s.reg sr1 + imm5.signExtend 16) s t

/-- R103. -/
def Obligations.AndRegisterGivesTheConjunction : Prop :=
  ∀ (dr sr1 sr2 : Reg) (s : State), ∃ t, exec (.andReg dr sr1 sr2) s = .next t ∧
    Defines dr (s.reg sr1 &&& s.reg sr2) s t

/-- R104. -/
def Obligations.AndImmediateGivesTheConjunction : Prop :=
  ∀ (dr sr1 : Reg) (imm5 : BitVec 5) (s : State), ∃ t, exec (.andImm dr sr1 imm5) s = .next t ∧
    Defines dr (s.reg sr1 &&& imm5.signExtend 16) s t

/-- R105. -/
def Obligations.NotGivesTheComplement : Prop :=
  ∀ (dr sr : Reg) (s : State), ∃ t, exec (.not dr sr) s = .next t ∧ Defines dr (~~~ s.reg sr) s t

/-! ### Control transfer -/

/-- R120: BR adds the offset to the incremented `pc` when its mask meets `cond`, and changes nothing else. Mask 0b000 is never
taken; mask 0b111 is always taken, `cond` holding one of the three flags. -/
def Obligations.BranchMovesPcWhenItsMaskMeetsCond : Prop :=
  ∀ (nzp : BitVec 3) (off : BitVec 9) (s : State),
    exec (.br nzp off) s =
        .next { s with pc := if nzp &&& s.cond ≠ 0b000#3 then s.pc + off.signExtend 16 else s.pc } ∧
      exec (.br 0b000 off) s = .next s ∧
      (s.cond = flagN ∨ s.cond = flagZ ∨ s.cond = flagP →
        exec (.br 0b111 off) s = .next { s with pc := s.pc + off.signExtend 16 })

/-- R121. -/
def Obligations.JumpGoesToTheBaseRegister : Prop :=
  ∀ (base : Reg) (s : State), exec (.jmp base) s = .next { s with pc := s.reg base }

/-- R122. -/
def Obligations.JsrLinksAndGoesToTheOffset : Prop :=
  ∀ (off : BitVec 11) (s : State), ∃ t, exec (.jsr off) s = .next t ∧ t.reg 7 = s.pc ∧
    OtherRegsSame 7 s t ∧ t.pc = s.pc + off.signExtend 16 ∧ { t with regs := s.regs, pc := s.pc } = s

/-- R123: the base register is read after R7 is written, so `JSRR R7` goes to the return address (the spec's own decision D26;
log entry 24). -/
def Obligations.JsrrLinksAndThenReadsTheBase : Prop :=
  ∀ (base : Reg) (s : State), ∃ t, exec (.jsrr base) s = .next t ∧ t.reg 7 = s.pc ∧
    OtherRegsSame 7 s t ∧ t.pc = (if base = 7 then s.pc else s.reg base) ∧
    { t with regs := s.regs, pc := s.pc } = s

/-! ### The memory port -/

/-- R45: a read of any address but KBSR, KBDR among them, gives the cell and changes no state. -/
def Obligations.ReadOfAnyOtherAddressChangesNothing : Prop :=
  (∀ (s : State) (a : Word), a ≠ kbsrAddr → s.memRead a = (s.mem.read a, s)) ∧
    ∀ s : State, s.memRead kbdrAddr = (s.mem.read kbdrAddr, s)

/-- R44: a read of KBSR polls the console first. When the draw says ready and a byte is unread, it consumes the byte,
sets KBSR to 0x8000 and KBDR to the byte, and gives 0x8000; otherwise it clears KBSR, leaves KBDR and the input, and
gives 0. The exact values are the spec's own decision D8 (log entry 7). The draw is the model's form of R50 (D10; log
entry 10): the oldest settled answer, which it consumes, or where none is left the free value at a counter that each
such draw advances, so that no two of them ask the same value. The input as a list is its form too (D10; log entry 9).
The two addresses, of R43 and R49, are from general knowledge (D7; log entry 6: PRESUMED). -/
def Obligations.ReadOfKeyboardStatusPollsTheConsole : Prop :=
  kbsrAddr = 0xFE00#16 ∧ kbdrAddr = 0xFE02#16 ∧
  (∀ (s : State) (ready : Bool), s.settleDraw ready = { s with readyDraws := s.readyDraws ++ [ready] }) ∧
  ∀ s : State, s.mem.wf = true →
    (∀ b rest, s.readyDraws.headD (Config.pollReady s.freePolls) = true → s.input = b :: rest →
      ∃ t, s.memRead kbsrAddr = (0x8000#16, t) ∧ t.mem.read kbsrAddr = 0x8000#16 ∧
        t.mem.read kbdrAddr = b.setWidth 16 ∧ t.input = rest ∧ SameButKeyboard s t ∧
        t.readyDraws = s.readyDraws.tail ∧
        t.freePolls = if s.readyDraws = [] then s.freePolls + 1 else s.freePolls) ∧
    (s.readyDraws.headD (Config.pollReady s.freePolls) = false ∨ s.input = [] →
      ∃ t, s.memRead kbsrAddr = (0x0000#16, t) ∧ t.mem.read kbsrAddr = 0x0000#16 ∧
        t.mem.read kbdrAddr = s.mem.read kbdrAddr ∧ t.input = s.input ∧ SameButKeyboard s t ∧
        t.readyDraws = s.readyDraws.tail ∧
        t.freePolls = if s.readyDraws = [] then s.freePolls + 1 else s.freePolls)

/-- R46: a write is a plain store at every address, the keyboard cells too (D9; log entry 8), and a value stored to KBSR is never
read back: the next read of KBSR gives the same value and the same state as if it had not been stored. -/
def Obligations.WriteIsAPlainStoreAndKeyboardStatusForgetsIt : Prop :=
  ∀ (s : State) (a v : Word), s.mem.wf = true →
    Stores a v s (s.memWrite a v) ∧ (s.memWrite kbsrAddr v).memRead kbsrAddr = s.memRead kbsrAddr

/-- The canonical form of memory is unique: two canonical memories that read alike at every address are equal. It is about the
model's own form (log entry 30). -/
def Obligations.CanonicalMemoriesThatReadAlikeAreEqual : Prop :=
  ∀ m m1 : Memory, m.wf = true → m1.wf = true → (∀ a, m.read a = m1.read a) → m = m1

/-! ### Loads and stores -/

/-- R140, R142: LD and LDR load the word their one `MemRead` answers, and set the flags from it. What the read itself does to the
keyboard cells and the input is in `(s.memRead ea).2`: nothing, unless the address is KBSR. -/
def Obligations.LoadGivesTheWordReadAtItsAddress : Prop :=
  ∀ (i : Instr) (dr : Reg) (ea : Word) (s : State),
    ((∃ off, i = .ld dr off ∧ ea = s.pc + off.signExtend 16) ∨
      (∃ base off, i = .ldr dr base off ∧ ea = s.reg base + off.signExtend 16)) →
    ∃ t, exec i s = .next t ∧ Defines dr (s.memRead ea).1 (s.memRead ea).2 t ∧
      OtherRegsSame dr s t ∧ t.pc = s.pc ∧ OutputSame s t ∧ ControlSame s t ∧ PlainMemSame s t ∧
      (ea ≠ kbsrAddr → Defines dr (s.mem.read ea) s t)

/-- R141: LDI reads the pointer, then the word it points to, and loads that word. -/
def Obligations.LoadIndirectGivesTheWordPointedTo : Prop :=
  ∀ (dr : Reg) (off : BitVec 9) (s : State),
    ∃ t p s1, exec (.ldi dr off) s = .next t ∧ s.memRead (s.pc + off.signExtend 16) = (p, s1) ∧
      Defines dr (s1.memRead p).1 (s1.memRead p).2 t ∧
      OtherRegsSame dr s t ∧ t.pc = s.pc ∧ OutputSame s t ∧ ControlSame s t ∧ PlainMemSame s t ∧
      (s.pc + off.signExtend 16 ≠ kbsrAddr → s.mem.read (s.pc + off.signExtend 16) ≠ kbsrAddr →
        Defines dr (s.mem.read (s.mem.read (s.pc + off.signExtend 16))) s t)

/-- R143: LEA gives the address, sets the flags from it and accesses no memory. -/
def Obligations.LeaGivesTheAddress : Prop :=
  ∀ (dr : Reg) (off : BitVec 9) (s : State), ∃ t, exec (.lea dr off) s = .next t ∧
    Defines dr (s.pc + off.signExtend 16) s t

/-- R144, R146: ST and STR store SR in the one cell at their address, KBSR and KBDR included (D9; log
entry 8), and change nothing else. -/
def Obligations.StoreWritesTheOneCellAtItsAddress : Prop :=
  ∀ (sr base : Reg) (off9 : BitVec 9) (off6 : BitVec 6) (s : State), s.mem.wf = true →
    (∃ t, exec (.st sr off9) s = .next t ∧ Stores (s.pc + off9.signExtend 16) (s.reg sr) s t) ∧
      (∃ t, exec (.str sr base off6) s = .next t ∧
        Stores (s.reg base + off6.signExtend 16) (s.reg sr) s t)

/-- R145: STI reads its pointer at base + offset6, stores SR where it points, and changes nothing else; the pointer's read does what
every `MemRead` does (STI's form: C2; a store to a keyboard cell: D9, log entry 8). -/
def Obligations.StoreIndirectWritesTheOneCellPointedTo : Prop :=
  ∀ (sr base : Reg) (off : BitVec 6) (s : State), s.mem.wf = true →
    ∃ t p s1, exec (.sti sr base off) s = .next t ∧
      s.memRead (s.reg base + off.signExtend 16) = (p, s1) ∧ Stores p (s.reg sr) s1 t ∧
      RegsSame s t ∧ t.pc = s.pc ∧ t.cond = s.cond ∧ OutputSame s t ∧ ControlSame s t ∧
      (∀ a, a ≠ p → a ≠ kbsrAddr → a ≠ kbdrAddr → t.mem.read a = s.mem.read a) ∧
      (s.reg base + off.signExtend 16 ≠ kbsrAddr →
        Stores (s.mem.read (s.reg base + off.signExtend 16)) (s.reg sr) s t)

/-- R53: a word that a store puts at the address of the next instruction is the word the next step fetches and runs. -/
def Obligations.StoredWordIsFetchedByTheNextStep : Prop :=
  ∀ (i : Instr) (sr : Reg) (s t : State), s.mem.wf = true → s.run = .running → s.pc ≠ kbsrAddr →
    ((∃ off, i = .st sr off) ∨ (∃ base off, i = .str sr base off) ∨ (∃ base off, i = .sti sr base off)) →
    i.storeAddr s = some s.pc → exec i s = .next t →
    step t = exec (decode (s.reg sr)) { t with ir := s.reg sr, pc := s.pc + 1 }

/-! ### TRAP -/

/-- R170 to R172: TRAP, with any vector, completes; it leaves R1 to R7, `cond`, `pc` and the fetched word alone, R0
too unless it is GETC or IN, and memory too but for the two keyboard cells, which a string read of PUTS or PUTSP may
refresh (R179; D12, D13, D17; log entries 12, 13 and 17). That GETC and IN complete without a byte too, in a blocked
state, is the model's form (log entry 27), and so is that every string ends with the input at hand (log entry 18). -/
def Obligations.TrapWithAnyVectorKeepsTheRestOfTheState : Prop :=
  ∀ (v : Byte) (s : State), ∃ t, exec (.trap v) s = .next t ∧ OtherRegsSame 0 s t ∧
    (v ≠ 0x20#8 → v ≠ 0x23#8 → t.reg 0 = s.reg 0) ∧ t.cond = s.cond ∧ t.pc = s.pc ∧ t.ir = s.ir ∧
    PlainMemSame s t ∧ (v ≠ 0x22#8 → v ≠ 0x24#8 → MemSame s t)

/-- R174, R177: with a byte to read, GETC puts it in R0 and writes nothing; IN writes its prompt and the byte's echo and puts it in
R0. The zero high byte (D14), the prompt (free) and the order (D15) are log entries 14 and 15. -/
def Obligations.GetcAndInTakeTheNextInputByte : Prop :=
  ∀ (s : State) (b : Byte) (rest : List Byte), s.input = b :: rest →
    exec (.trap 0x20#8) s = .next { s.setReg 0 (b.setWidth 16) with input := rest } ∧
      exec (.trap 0x23#8) s = .next { s.setReg 0 (b.setWidth 16) with
        input := rest, output := s.output ++ Config.inPrompt ++ [b] }

/-- R13, R28, R50, R177: without a byte GETC and IN block; IN has then written its prompt, for the prompt comes before
the read by R177's order, the spec's own decision D15 (log entry 15). A blocked step waits with all state intact. That
being blocked is a run state the machine steps in is the model's form (log entry 27), and that a read blocks at the
end of the input is D10 (log entry 9). -/
def Obligations.GetcAndInBlockWithoutInputAndWait : Prop :=
  (∀ s : State, s.input = [] →
    exec (.trap 0x20#8) s = .next { s with run := .blocked .getc } ∧
      exec (.trap 0x23#8) s =
        .next { s with run := .blocked .inEcho, output := s.output ++ Config.inPrompt }) ∧
  (∀ (s : State) (w : Waiting), s.run = .blocked w → s.input = [] → step s = .next s)

/-- R28, R213: a blocked GETC or IN ends when a byte arrives, with the same effect as if the byte had been there at once.
From any blocked state with bytes to read, however many arrived, the next step completes the routine with the first of
them: GETC puts it in R0, IN also echoes it, and the core runs again with nothing else changed (R174, R177; the zero high
byte and IN's order are D14 and D15, log entries 14 and 15). That bytes arrive by `supply`, each behind those not yet
consumed, and a further step then leaves the blocked state is the model's form (log entries 9, 27 and 33). -/
def Obligations.WaitingForAByteDoesNotChangeWhatIsRead : Prop :=
  (∀ (v : Byte) (s t : State) (b : Byte), v = 0x20#8 ∨ v = 0x23#8 → s.run = .running → s.input = [] →
    exec (.trap v) s = .next t → step (t.supply b) = exec (.trap v) (s.supply b)) ∧
  (∀ (s : State) (b : Byte), s.supply b = { s with input := s.input ++ [b] }) ∧
  ∀ (s : State) (b : Byte) (rest : List Byte), s.input = b :: rest →
    (s.run = .blocked .getc →
      step s = .next { s.setReg 0 (b.setWidth 16) with input := rest, run := .running }) ∧
    (s.run = .blocked .inEcho → step s = .next { s.setReg 0 (b.setWidth 16) with
      input := rest, run := .running, output := s.output ++ [b] })

/-- R175. -/
def Obligations.OutWritesTheLowByteOfR0 : Prop :=
  ∀ s : State, exec (.trap 0x21#8) s = .next { s with output := s.output ++ [(s.reg 0).extractLsb' 0 8] }

/-- R13, R176, R178, R179: PUTS and PUTSP run their whole loop in the one step of the TRAP, from the address in R0 to the first zero
word, through `MemRead`, and end in the state the loop leaves, however long the string (string reads poll: D17; log entry 17). With
the input at hand every string ends: each 65536 reads contain one of KBSR, which consumes a byte or gives zero (R44; that the input at
hand is a finite list is the model's form: log entries 9 and 18). -/
def Obligations.StringTrapsRunToTheFirstZeroWord : Prop :=
  ∀ s : State, s.mem.wf = true →
    (∀ n t, PrintsTo .puts (s.reg 0) s n t → exec (.trap 0x22#8) s = .next t) ∧
    (∀ n t, PrintsTo .putsp (s.reg 0) s n t → exec (.trap 0x24#8) s = .next t) ∧
    (∃ n t, n ≤ 65536 * (s.input.length + 1) ∧ PrintsTo .puts (s.reg 0) s n t) ∧
    (∃ n t, n ≤ 65536 * (s.input.length + 1) ∧ PrintsTo .putsp (s.reg 0) s n t)

/-- R176, R178: on a string that does not cover KBSR, PUTS writes the low byte of each word up to the first zero word, PUTSP the low
byte and then the high byte if it is nonzero, and nothing else changes. Addresses wrap. -/
def Obligations.StringTrapsWriteTheBytesOfEachWord : Prop :=
  ∀ (s : State) (ws : List Word), ws.length < 65536 → (∀ w ∈ ws, w ≠ 0x0000#16) →
    (∀ (k : Nat) (w : Word), ws[k]? = some w → s.mem.read (s.reg 0 + BitVec.ofNat 16 k) = w) →
    s.mem.read (s.reg 0 + BitVec.ofNat 16 ws.length) = 0x0000#16 →
    (∀ k, k ≤ ws.length → s.reg 0 + BitVec.ofNat 16 k ≠ kbsrAddr) →
    exec (.trap 0x22#8) s = .next { s with output := s.output ++ ws.map fun w => w.extractLsb' 0 8 } ∧
      exec (.trap 0x24#8) s = .next { s with
        output := s.output ++ ws.flatMap fun w =>
          if w.extractLsb' 8 8 = 0x00#8 then [w.extractLsb' 0 8]
          else [w.extractLsb' 0 8, w.extractLsb' 8 8] }

/-- R180: if a zero word exists, PUTS and PUTSP end at it or before it, after at most 65536 reads. It may be any cell but KBSR, whose
stored word no read ever gives (R46), and it may be KBDR where the string reads KBDR before KBSR: a poll may overwrite it. -/
def Obligations.StringEndsWithinOnePassWhenAZeroWordExists : Prop :=
  ∀ (s : State) (j : Nat), j < 65536 →
    s.mem.read (s.reg 0 + BitVec.ofNat 16 j) = 0x0000#16 → s.reg 0 + BitVec.ofNat 16 j ≠ kbsrAddr →
    (s.reg 0 + BitVec.ofNat 16 j = kbdrAddr → ∀ i, i < j → s.reg 0 + BitVec.ofNat 16 i ≠ kbsrAddr) →
    (∃ n t, n ≤ j + 1 ∧ PrintsTo .puts (s.reg 0) s n t ∧ exec (.trap 0x22#8) s = .next t) ∧
      (∃ n t, n ≤ j + 1 ∧ PrintsTo .putsp (s.reg 0) s n t ∧ exec (.trap 0x24#8) s = .next t)

/-- R180, K13: where no word of memory is zero and the environment has a nonzero byte for every poll of KBSR, a PUTS or PUTSP under
way never has to end: for every number of reads there is a run of that many, still inside the routine, with at least one byte written
for each, and memory still without a zero word. That such input arrives while the routine is under way, read by read, is the model's
form (log entry 18). -/
def Obligations.StringWithoutAZeroWordKeepsTheCoreInItsRoutine : Prop :=
  ∀ (form : StringForm) (a : Word) (s : State), s.mem.wf = true → s.run = .printing form a →
    s.input = [] → s.readyDraws = [] → (∀ z, z ≠ kbsrAddr → s.mem.read z ≠ 0x0000#16) →
    ∀ k : Nat, ∃ t, Follows s t ∧ t.run = .printing form (a + BitVec.ofNat 16 k) ∧
      s.output.length + k ≤ t.output.length ∧ ∀ z, z ≠ kbsrAddr → t.mem.read z ≠ 0x0000#16

/-- R13, R176, R178, R180: the step of a PUTS or PUTSP is the same whether it is taken whole or begun and taken read by read with no
arrival between, and a string under way, of any length, ends in the state its loop leaves. The read-by-read view is the model's form
(log entry 18). -/
def Obligations.LongStringReturnsInTheStateItsLoopLeaves : Prop :=
  ∀ s : State, s.mem.wf = true →
    (∀ u, s.enterString = some u →
      ∃ n t, step s = .next t ∧ t.run = .running ∧ step u = .next t ∧ State.stringReads n u = some t) ∧
    (∀ form a n t, s.run = .printing form a → PrintsTo form a s n t →
      step s = .next { t with run := .running } ∧ State.stringReads n s = some { t with run := .running }) ∧
    (s.run = .running → ∀ v : Byte, decode (s.memRead s.pc).1 = .trap v →
      (s.enterString.isSome = true ↔ v = 0x22#8 ∨ v = 0x24#8))

/-- R181: HALT flushes the output and halts; it writes nothing (D16; log entry 16). The restored console mode is R207's (log
entry 29). -/
def Obligations.HaltFlushesAndHalts : Prop :=
  ∀ s : State, exec (.trap 0x25#8) s =
    .next { s with flushed := s.output.length, run := .halted, mode := .original }

/-- R173: an unknown vector does nothing (the source's own choice, D19; log entry 19). -/
def Obligations.UnknownTrapVectorDoesNothing : Prop :=
  ∀ (v : Byte) (s : State), v < 0x20#8 ∨ 0x25#8 < v → exec (.trap v) s = .next s

/-- R182, R183: RES and RTI raise Fatal with their opcode, the fetched word and the incremented `pc`, whatever the state; no
register, flag or memory cell is written, the console mode is restored and the exit code is not 0. The cause codes are the spec's
own (D20; log entry 20), and the restored mode is R207's (log entry 29). -/
def Obligations.ResAndRtiRaiseFatal : Prop :=
  (∀ s : State, ∃ r, exec .res s = .next { s with run := .fatal r, mode := .original } ∧
    r.cause.code = 0xD#4 ∧ r.instr = s.ir ∧ r.pc = s.pc) ∧
  (∀ s : State, ∃ r, exec .rti s = .next { s with run := .fatal r, mode := .original } ∧
    r.cause.code = 0x8#4 ∧ r.instr = s.ir ∧ r.pc = s.pc) ∧
  (∀ r, ∃ c, (RunState.fatal r).exitCode = some c ∧ c ≠ 0)

/-! ### The machine as a whole -/

/-- R23: a running core reads the word at `pc` through `MemRead`, increments `pc` modulo 2^16 before anything is decoded, and runs
the decoded instruction on that state. -/
def Obligations.StepFetchesIncrementsAndRunsTheDecodedInstruction : Prop :=
  ∀ (s s1 : State) (w : Word), s.run = .running → s.memRead s.pc = (w, s1) →
    step s = exec (decode w) { s1 with ir := w, pc := s.pc + 1 }

/-- R28, R181, R200: a halted, fatal or aborted core takes no step, a running one always does, and no instruction is
ever refused. That a step is also taken from a blocked state and from inside a string under way is the model's form
(log entries 27 and 18), and so are the named faults (log entry 26). -/
def Obligations.StepIsTakenExactlyWhileTheRunGoesOn : Prop :=
  ∀ s : State, ((∃ t, step s = .next t) ↔ s.run.live = true) ∧
    (s.run = .halted → step s = .fault .alreadyHalted) ∧
    (∀ r, s.run = .fatal r → step s = .fault .alreadyFatal) ∧
    (s.run = .aborted → step s = .fault .alreadyAborted) ∧ ∀ r, step s ≠ .refused r

/-- R27: `cond` is written by ADD, AND, NOT, LD, LDI, LDR and LEA alone, and read by BR alone: with another `cond` any instruction
but BR does the same to everything else. That GETC and IN leave `cond` alone is D13 (log entry 13). -/
def Obligations.CondIsWrittenBySevenInstructionsAndReadByBranchAlone : Prop :=
  ∀ (i : Instr) (s : State), ∃ t, exec i s = .next t ∧ (i.flagDest = none → t.cond = s.cond) ∧
    (∀ dr, i.flagDest = some dr → t.cond = signFlag (t.reg dr)) ∧
    ((∀ nzp off, i ≠ .br nzp off) → ∀ c, ∃ t1, exec i { s with cond := c } = .next t1 ∧
      { t1 with cond := t.cond } = t ∧ (i.flagDest = none → t1.cond = c) ∧ (i.flagDest ≠ none → t1 = t))

/-- R24: after the increment, which wraps, `pc` is changed by BR, JMP, JSR and JSRR alone. -/
def Obligations.PcIsMovedByControlTransferAlone : Prop :=
  ∀ s t : State, s.run = .running → step s = .next t →
    (decode (s.memRead s.pc).1).movesPc = false → t.pc = s.pc + 1

/-- R21: an instruction changes no general register but the one R21 lists for it. -/
def Obligations.RegistersAreWrittenOnlyAsListed : Prop :=
  ∀ (i : Instr) (s : State) (r : Reg), i.regWritten ≠ some r → ∃ t, exec i s = .next t ∧ t.reg r = s.reg r

/-- R47, R40: an instruction changes no memory cell but the one it stores to, the two keyboard cells aside, which a read of KBSR
may refresh. -/
def Obligations.MemoryIsWrittenByStoresAlone : Prop :=
  ∀ (i : Instr) (s : State) (a : Word), i.storeAddr s ≠ some a → a ≠ kbsrAddr → a ≠ kbdrAddr →
    ∃ t, exec i s = .next t ∧ t.mem.read a = s.mem.read a

/-- R30: the instruction word does not survive past a step: what a running core does next does not depend on the word it last
fetched. That the model keeps the word is its own form (log entry 28). -/
def Obligations.FetchedWordDoesNotOutliveItsStep : Prop :=
  ∀ (s : State) (w : Word), s.run = .running → step { s with ir := w } = step s

/-- R50: a step appends to the output and consumes input from the front; it never takes back an output byte nor makes up an input
byte. The input's form is the spec's decision D10 (log entry 9). -/
def Obligations.ConsoleBytesAreNeverTakenBackOrMadeUp : Prop :=
  ∀ s t : State, step s = .next t →
    (∃ written, t.output = s.output ++ written) ∧ (∃ consumed, s.input = consumed ++ t.input)

/-- R13, R28, R200, R201: how a running core leaves `Running`. Fatal comes of a fetched RES or RTI word and of nothing
else; Halted of HALT; blocked of GETC or IN with no byte left; no step ends inside a string, and Aborted comes of no
step. -/
def Obligations.RunStateLeavesRunningOnlyAsListed : Prop :=
  ∀ s t : State, s.run = .running → step s = .next t →
    ((∃ r, t.run = .fatal r) ↔ opcodeField (s.memRead s.pc).1 = 0xD#4 ∨ opcodeField (s.memRead s.pc).1 = 0x8#4) ∧
    (t.run = .halted ↔ decode (s.memRead s.pc).1 = .trap 0x25#8) ∧
    (∀ w, t.run = .blocked w →
      (decode (s.memRead s.pc).1 = .trap 0x20#8 ∨ decode (s.memRead s.pc).1 = .trap 0x23#8) ∧ t.input = []) ∧
    (∀ form a, t.run ≠ .printing form a) ∧ t.run ≠ .aborted

/-! ### Reset, boot and the end of a run -/

/-- R31, R230: the state at reset. `pc`, the run state, the empty output and raw mode are the spec's; `cond` = Z is its decision D4
(log entry 3); the registers and memory reading as 0 are the model's choice (log entries 4 and 5). -/
def Obligations.ResetStateIsAsSpecified : Prop :=
  State.reset.pc = 0x3000#16 ∧ State.reset.run = .running ∧ State.reset.output = [] ∧ State.reset.mode = .raw ∧
    State.reset.cond = flagZ ∧ (∀ r, State.reset.reg r = 0x0000#16) ∧ ∀ a, State.reset.mem.read a = 0x0000#16

/-- The invariant holds at reset, for every `GPR_RESET`, every one-flag `COND_RESET` and every canonical memory, and so at
`State.reset` (R31, R25). -/
def Obligations.ResetMeetsTheInvariant : Prop :=
  (∀ (gprs : Vector Word 8) (cond : BitVec 3) (mem : Memory), mem.wf = true →
    cond = flagN ∨ cond = flagZ ∨ cond = flagP → Inv (State.resetWith gprs cond mem)) ∧ Inv State.reset

/-- Every step keeps the invariant, from every state that meets it: `cond` holds exactly one flag (R25), raw mode lasts
exactly as long as the run (R207), a halted core has flushed (R181), Fatal's record is true (R200), memory stays
canonical (the model's form; log entries 29 and 30). -/
def Obligations.EveryStepKeepsTheInvariant : Prop := ∀ s t : State, Inv s → step s = .next t → Inv t

/-- Every state a booted machine reaches, by steps, arriving input, strings taken read by read and external breaks in
any order (D22; log entries 18, 22 and 33), meets the invariant, canonical memory included (the model's form; log
entry 30). -/
def Obligations.EveryReachableStateMeetsTheInvariant : Prop := ∀ s : State, Reachable s → Inv s

/-- R206: an external break ends a running or blocked core as Aborted, restores the console mode and changes nothing else; an ended
run takes none, nor does a string under way, which is a step that has not ended (R202; D22; log entry 22). -/
def Obligations.ExternalBreakAbortsARunningOrBlockedCore : Prop :=
  ∀ s : State,
    (s.run = .running ∨ (∃ w, s.run = .blocked w) →
      s.externalBreak = some { s with run := .aborted, mode := .original }) ∧
    (∀ form a, s.run = .printing form a → s.externalBreak = none) ∧
    (s.run.live = false → s.externalBreak = none)

/-- R28, R207: from a state that meets the invariant, an ended run stays ended in the same way whatever happens, and the console
mode, once restored, stays so: `restore_mode()` comes once. -/
def Obligations.AnEndedRunStaysEnded : Prop :=
  ∀ (e : HostEvent) (s t : State), Inv s → s.run.live = false → Transition e s t →
    t.run = s.run ∧ t.mode = .original ∧ s.mode = .original ∧ t.output = s.output ∧ RegsSame s t ∧ MemSame s t

/-- R207: the exit codes. 0 for a halted core, whose whole output has appeared; some code other than 0 for a fatal one; some code for
an aborted one; 2 with no image; 1 after a load failure; none while the run goes on. The codes of a fatal and of an aborted end are
free (D20, K12; log entries 20 and 32). -/
def Obligations.ExitCodesAreThoseOfTheExitPaths : Prop :=
  (∀ s : State, Inv s →
    (s.run = .halted → s.run.exitCode = some 0 ∧ s.mode = .original ∧ s.flushed = s.output.length) ∧
    (∀ r, s.run = .fatal r → s.mode = .original ∧ ∃ c, s.run.exitCode = some c ∧ c ≠ 0) ∧
    (s.run = .aborted → s.mode = .original ∧ ∃ c, s.run.exitCode = some c) ∧
    (s.run.live = true → s.run.exitCode = none ∧ s.mode = .raw)) ∧
  (∀ gprs cond mem, (boot gprs cond mem []).exitCode = some 2) ∧
  ∀ name e, (Boot.loadFailed name e).exitCode = some 1

/-- R232, R233: an image's words, big-endian, go to origin + k modulo 2^16, a later word over an earlier one; every cell the image
does not reach keeps its value. That memory stays canonical is about the model's own form (log entry 30). -/
def Obligations.ImageWordsArePlacedFromTheOrigin : Prop :=
  ∀ (origin : Word) (ws : List Word) (m : Memory), m.wf = true →
    ∃ m1, loadBytes ((origin :: ws).flatMap fun w => [w.extractLsb' 8 8, w.extractLsb' 0 8]) m = .ok m1 ∧
      m1.wf = true ∧
      (∀ (k : Nat) (w : Word), ws[k]? = some w → ws.length - k ≤ 65536 →
        m1.read (origin + BitVec.ofNat 16 k) = w) ∧
      (∀ a, (∀ k, k < ws.length → a ≠ origin + BitVec.ofNat 16 k) → m1.read a = m.read a)

/-- R232, R234: an image that can be opened loads as its bytes do; one that cannot is Unreadable; one of fewer than two bytes is
Truncated; an origin alone stores nothing; a final odd byte is ignored (D27; log entry 25). -/
def Obligations.ImageErrorsAreUnreadableAndTruncated : Prop :=
  (∀ (name : String) (m : Memory), loadImage ⟨name, none⟩ m = .error .unreadable) ∧
  (∀ (name : String) (bytes : List Byte) (m : Memory),
    loadImage ⟨name, some bytes⟩ m = loadBytes bytes m ∧
    (loadImage ⟨name, some bytes⟩ m = .error .truncated ↔ bytes.length < 2) ∧
    loadImage ⟨name, some bytes⟩ m ≠ .error .unreadable ∧
    (bytes.length = 2 → loadImage ⟨name, some bytes⟩ m = .ok m)) ∧
  (∀ (bytes : List Byte) (b : Byte) (m : Memory), bytes.length % 2 = 0 → 2 ≤ bytes.length →
    loadBytes (bytes ++ [b]) m = loadBytes bytes m)

/-- R231, R235, R236: with no image, usage; images load in the order given, each into the memory the ones before it
left, and the first that fails ends the boot by its name; otherwise the first fetch is made at 0x3000 in raw mode,
whatever the origins, with the memory the last image left and nothing else changed. The messages' texts are not modelled
(log entry 35). That the input is empty then is the model's choice, R31 leaving it to the environment (log entry 38). -/
def Obligations.BootLoadsTheImagesInOrderAndStartsAt3000 : Prop :=
  ∀ (gprs : Vector Word 8) (cond : BitVec 3) (m m1 : Memory) (before after : List ImageFile) (f : ImageFile),
    boot gprs cond m [] = .usage ∧ loadImages [] m = .ok m ∧
    (loadImages before m = .ok m1 →
      (∀ e, loadImage f m1 = .error e → boot gprs cond m (before ++ f :: after) = .loadFailed f.name e) ∧
      (∀ m2, loadImage f m1 = .ok m2 → loadImages (before ++ [f]) m = .ok m2 ∧
        ∃ s, boot gprs cond m (before ++ [f]) = .started s ∧ s.mem = m2) ∧
      (before ≠ [] → ∃ s, boot gprs cond m before = .started s ∧ s.pc = 0x3000#16 ∧ s.run = .running ∧
        s.mode = .raw ∧ s.mem = m1 ∧ s.regs = gprs ∧ s.cond = cond ∧ s.input = [] ∧ s.output = []))

/-- Whatever happens keeps the invariant, from every state that meets it: a step, arriving input, a settled poll answer, an external
break, and a string begun or taken read by read (R206, R207, R50; D22; log entries 18, 22, 29, 30 and 33). -/
def Obligations.EveryTransitionKeepsTheInvariant : Prop :=
  ∀ (e : HostEvent) (s t : State), Inv s → Transition e s t → Inv t

/-- R26, R76, R120, R240: bits 11, 10 and 9 of a BR word are its mask, n, z and p, and after `setcc` of any value a BR is taken exactly
when its mask has n and the value is negative, or z and it is 0, or p and it is positive. The three flag values and the mask's places are
from general knowledge (D2, D3; log entries 1 and 2: PRESUMED). -/
def Obligations.BranchTestsTheSignOfTheLastDefinedValue : Prop :=
  (flagN = 0b100#3 ∧ flagZ = 0b010#3 ∧ flagP = 0b001#3) ∧
  (∀ w : Word, w.extractLsb' 12 4 = 0x0#4 → decode w = .br (w.extractLsb' 9 3) (w.extractLsb' 0 9)) ∧
  ∀ (nzp : BitVec 3) (off : BitVec 9) (v : Word) (s : State),
    exec (.br nzp off) (s.setcc v) = .next { s.setcc v with
      pc := if (nzp.getLsbD 2 = true ∧ v.toInt < 0) ∨ (nzp.getLsbD 1 = true ∧ v.toInt = 0) ∨
          (nzp.getLsbD 0 = true ∧ 0 < v.toInt) then s.pc + off.signExtend 16 else s.pc }
end

