-- ==== Sys2Proof/Laws/Decode.lean ====
section
/-! SUPPORT. The codec's small laws: registers and their bits, and the bits of a placed field. -/

namespace Sys2Proof

@[simp] theorem regOfBits_regBits (r : Reg) : regOfBits (regBits r) = r := rfl

@[simp] theorem regBits_regOfBits (b : BitVec 3) : regBits (regOfBits b) = b := rfl

/-- A register number read from the bits of a register is that register. -/
theorem regOfBits_eq {b : BitVec 3} {r : Reg} (h : b = regBits r) : regOfBits b = r := by
  subst h; rfl

/-- Bit `k` of a placed field. -/
theorem getLsbD_place {n : Nat} (f : BitVec n) (lo k : Nat) :
    (place f lo).getLsbD k = (decide (k < 16) && decide (lo ≤ k) && f.getLsbD (k - lo)) := by
  by_cases h : k < 16
  · by_cases g : lo ≤ k
    · simp [place, h, g, show ¬ k < lo by omega]
    · simp [place, h, g, show k < lo by omega]
  · rw [BitVec.getLsbD_of_ge _ _ (by omega)]
    simp [h]

/-- Bit `k` of a field taken from a word and placed back where it was: the word's bit inside the field, 0 outside. -/
theorem getLsbD_place_extract (w : Word) (lo n k : Nat) :
    (place (w.extractLsb' lo n) lo).getLsbD k = (decide (lo ≤ k) && decide (k < lo + n) && w.getLsbD k) := by
  rw [getLsbD_place]
  by_cases h : k < 16
  · by_cases g : lo ≤ k
    · by_cases e : k < lo + n
      · simp [h, g, e, show k - lo < n by omega, show lo + (k - lo) = k by omega]
      · simp [h, g, e, show ¬ k - lo < n by omega]
    · simp [g]
  · simp [h, BitVec.getLsbD_of_ge w k (by omega)]

/-- The opcode's bits are the top four bits of the word. -/
theorem getLsbD_opcodeField (w : Word) {k : Nat} (h : k < 4) : (opcodeField w).getLsbD k = w.getLsbD (12 + k) := by
  simp [opcodeField, h]

end Sys2Proof
end

