-- ==== Sys2Proof/Laws/Memory.lean ====
section
/-! SUPPORT. The laws of the memory array: every operation keeps the canonical form, a read after a write to the same cell gives
the value written, and a write leaves every other cell alone. -/

namespace Sys2Proof.Machine

/-- The canonical form from `lo` on, of a list with a first entry. -/
theorem Memory.wfFrom_cons {lo a : Nat} {v : Word} {rest : Memory} :
    Memory.wfFrom lo ((a, v) :: rest) = true ↔
      lo ≤ a ∧ a < 65536 ∧ v ≠ Memory.unlisted ∧ Memory.wfFrom (a + 1) rest = true := by
  simp [Memory.wfFrom, and_assoc]

/-- A canonical form from a higher address is one from a lower address. -/
theorem Memory.wfFrom_mono {lo lo' : Nat} (h : lo' ≤ lo) {m : Memory} (wf : Memory.wfFrom lo m = true) :
    Memory.wfFrom lo' m = true := by
  cases m with
  | nil => rfl
  | cons c rest =>
    obtain ⟨h1, h2⟩ := Memory.wfFrom_cons.mp wf
    exact Memory.wfFrom_cons.mpr ⟨h.trans h1, h2⟩

/-- Below its first address a canonical memory lists nothing. -/
theorem Memory.cell_of_lt {lo a : Nat} {m : Memory} (wf : Memory.wfFrom lo m = true) (h : a < lo) :
    m.cell a = Memory.unlisted := by
  induction m generalizing lo with
  | nil => rfl
  | cons c rest ih =>
    obtain ⟨h1, -, -, h4⟩ := Memory.wfFrom_cons.mp wf
    simp only [Memory.cell]
    rw [if_neg (by omega)]
    exact ih h4 (by omega)

/-- `put` keeps the canonical form. -/
theorem Memory.put_wfFrom {lo a : Nat} {m : Memory} (wf : Memory.wfFrom lo m = true) (h1 : lo ≤ a)
    (h2 : a < 65536) (v : Word) : Memory.wfFrom lo (m.put a v) = true := by
  induction m generalizing lo with
  | nil =>
    simp only [Memory.put]
    split
    · rfl
    · exact Memory.wfFrom_cons.mpr ⟨h1, h2, by assumption, rfl⟩
  | cons c rest ih =>
    obtain ⟨k1, k2, k3, k4⟩ := Memory.wfFrom_cons.mp wf
    simp only [Memory.put]
    split
    · split
      · exact wf
      · exact Memory.wfFrom_cons.mpr
          ⟨h1, h2, by assumption, Memory.wfFrom_cons.mpr ⟨by omega, k2, k3, k4⟩⟩
    · split
      · split
        · exact Memory.wfFrom_mono (by omega) k4
        · exact Memory.wfFrom_cons.mpr ⟨h1, h2, by assumption, by simp_all⟩
      · exact Memory.wfFrom_cons.mpr ⟨k1, k2, k3, ih k4 (by omega)⟩

/-- `write` keeps the canonical form. -/
theorem Memory.write_wf {m : Memory} (wf : m.wf = true) (a v : Word) : (m.write a v).wf = true :=
  Memory.put_wfFrom wf (Nat.zero_le _) a.isLt v

/-- The cell written holds the value written. -/
theorem Memory.cell_put_self {lo a : Nat} {m : Memory} (wf : Memory.wfFrom lo m = true) (v : Word) :
    (m.put a v).cell a = v := by
  induction m generalizing lo with
  | nil => simp only [Memory.put]; split <;> simp_all [Memory.cell]
  | cons c rest ih =>
    obtain ⟨-, -, -, k4⟩ := Memory.wfFrom_cons.mp wf
    simp only [Memory.put]
    split
    · split
      · simp only [Memory.cell]
        rw [if_neg (by omega), Memory.cell_of_lt k4 (by omega)]
        simp_all
      · simp [Memory.cell]
    · split
      · split
        · rw [Memory.cell_of_lt k4 (by omega)]; simp_all
        · simp [Memory.cell]
      · simp only [Memory.cell]
        rw [if_neg (by omega)]
        exact ih k4

/-- Every other cell holds what it held. -/
theorem Memory.cell_put_of_ne {a b : Nat} (h : b ≠ a) (m : Memory) (v : Word) : (m.put a v).cell b = m.cell b := by
  induction m with
  | nil => simp only [Memory.put]; split <;> simp [Memory.cell, h.symm]
  | cons c rest ih =>
    simp only [Memory.put]
    split
    · split
      · rfl
      · simp [Memory.cell, h.symm]
    · split
      · rename_i e
        subst e
        split <;> simp [Memory.cell, Ne.symm h]
      · simp only [Memory.cell, ih]

/-- A read after a write to the same address. -/
theorem Memory.read_write_self {m : Memory} (wf : m.wf = true) (a v : Word) : (m.write a v).read a = v :=
  Memory.cell_put_self wf v

/-- A read after a write to another address. -/
theorem Memory.read_write_of_ne {a b : Word} (h : b ≠ a) (m : Memory) (v : Word) :
    (m.write a v).read b = m.read b :=
  Memory.cell_put_of_ne (fun e => h (BitVec.eq_of_toNat_eq e)) m v

/-- A cell outside the address space is never listed. -/
theorem Memory.cell_of_ge {lo a : Nat} {m : Memory} (wf : Memory.wfFrom lo m = true) (h : 65536 ≤ a) :
    m.cell a = Memory.unlisted := by
  induction m generalizing lo with
  | nil => rfl
  | cons c rest ih =>
    obtain ⟨-, k2, -, k4⟩ := Memory.wfFrom_cons.mp wf
    simp only [Memory.cell]
    rw [if_neg (by omega)]
    exact ih k4

/-- Storing an image keeps the canonical form. -/
theorem placeWords_wf (a : Word) (bytes : List Byte) {m : Memory} (wf : m.wf = true) :
    (placeWords a bytes m).wf = true := by
  fun_induction placeWords a bytes m with
  | case1 a hi lo rest m ih => exact ih (Memory.write_wf wf _ _)
  | case2 => exact wf
  | case3 => exact wf

/-- Loading one image keeps the canonical form. -/
theorem loadImage_wf {f : ImageFile} {m m1 : Memory} (wf : m.wf = true) (h : loadImage f m = .ok m1) :
    m1.wf = true := by
  unfold loadImage loadBytes at h
  split at h
  · cases h
  · split at h <;> cases h
    exact placeWords_wf _ _ wf

/-- Loading images one after another keeps the canonical form. -/
theorem loadImages_wf {fs : List ImageFile} {m m1 : Memory} (wf : m.wf = true) (h : loadImages fs m = .ok m1) :
    m1.wf = true := by
  induction fs generalizing m with
  | nil => cases h; exact wf
  | cons f rest ih =>
    simp only [loadImages] at h
    split at h
    · exact ih (loadImage_wf wf (by assumption)) h
    · cases h

/-- The memory of a list of cells is canonical. -/
theorem Memory.ofCells_wf (cells : List (Word × Word)) : (Memory.ofCells cells).wf = true := by
  suffices h : ∀ m : Memory, m.wf = true → (cells.foldl (fun m c => m.write c.1 c.2) m).wf = true from h [] rfl
  induction cells with
  | nil => exact fun _ wf => wf
  | cons c cells ih => exact fun m wf => ih _ (Memory.write_wf wf _ _)

/-- Reset's memory is canonical. -/
theorem State.reset_mem_wf : State.reset.mem.wf = true := rfl

end Sys2Proof.Machine
end

