-- ==== Sys2Proof/Laws/Loader.lean ====
section
/-! SUPPORT. The loader's small laws. -/

namespace Sys2Proof.Machine

/-- A word spelled in its two bytes and read back is that word. -/
@[simp] theorem bigEndian_bytes (w : Word) : bigEndian (w.extractLsb' 8 8) (w.extractLsb' 0 8) = w := by
  apply BitVec.eq_of_toNat_eq
  rw [bigEndian, BitVec.toNat_append]
  simp only [BitVec.extractLsb'_toNat]
  rw [Nat.shiftLeft_eq, Nat.shiftRight_eq_div_pow, Nat.shiftRight_eq_div_pow]
  have := w.isLt
  rw [mul_comm, ← Nat.two_pow_add_eq_or_of_lt (by omega)]
  omega

/-- The address after `a` and `k` more is `k + 1` past `a`. -/
theorem succ_add_ofNat (a : Word) (k : Nat) : a + 1 + BitVec.ofNat 16 k = a + BitVec.ofNat 16 (k + 1) := by
  rw [BitVec.ofNat_add, BitVec.add_assoc, BitVec.add_comm 1]
  rfl

end Sys2Proof.Machine
end

