-- ==== Sys2Proof/Laws/State.lean ====
section
/-! SUPPORT. The fields of State under each named update: one lemma per field per update. -/

namespace Sys2Proof.Machine

variable (s : State)

/-! ### setReg -/

@[simp] theorem State.setReg_regs (r : Reg) (v : Word) : (s.setReg r v).regs = s.regs.set r.val v := rfl
@[simp] theorem State.setReg_pc (r : Reg) (v : Word) : (s.setReg r v).pc = s.pc := rfl
@[simp] theorem State.setReg_cond (r : Reg) (v : Word) : (s.setReg r v).cond = s.cond := rfl
@[simp] theorem State.setReg_mem (r : Reg) (v : Word) : (s.setReg r v).mem = s.mem := rfl
@[simp] theorem State.setReg_ir (r : Reg) (v : Word) : (s.setReg r v).ir = s.ir := rfl
@[simp] theorem State.setReg_run (r : Reg) (v : Word) : (s.setReg r v).run = s.run := rfl
@[simp] theorem State.setReg_input (r : Reg) (v : Word) : (s.setReg r v).input = s.input := rfl
@[simp] theorem State.setReg_output (r : Reg) (v : Word) : (s.setReg r v).output = s.output := rfl
@[simp] theorem State.setReg_mode (r : Reg) (v : Word) : (s.setReg r v).mode = s.mode := rfl
@[simp] theorem State.setReg_flushed (r : Reg) (v : Word) : (s.setReg r v).flushed = s.flushed := rfl
@[simp] theorem State.setReg_readyDraws (r : Reg) (v : Word) : (s.setReg r v).readyDraws = s.readyDraws := rfl
@[simp] theorem State.setReg_freePolls (r : Reg) (v : Word) : (s.setReg r v).freePolls = s.freePolls := rfl

/-! ### setcc -/

@[simp] theorem State.setcc_regs (v : Word) : (s.setcc v).regs = s.regs := rfl
@[simp] theorem State.setcc_pc (v : Word) : (s.setcc v).pc = s.pc := rfl
@[simp] theorem State.setcc_cond (v : Word) : (s.setcc v).cond = flagOf v := rfl
@[simp] theorem State.setcc_mem (v : Word) : (s.setcc v).mem = s.mem := rfl
@[simp] theorem State.setcc_ir (v : Word) : (s.setcc v).ir = s.ir := rfl
@[simp] theorem State.setcc_run (v : Word) : (s.setcc v).run = s.run := rfl
@[simp] theorem State.setcc_input (v : Word) : (s.setcc v).input = s.input := rfl
@[simp] theorem State.setcc_output (v : Word) : (s.setcc v).output = s.output := rfl
@[simp] theorem State.setcc_mode (v : Word) : (s.setcc v).mode = s.mode := rfl
@[simp] theorem State.setcc_flushed (v : Word) : (s.setcc v).flushed = s.flushed := rfl
@[simp] theorem State.setcc_readyDraws (v : Word) : (s.setcc v).readyDraws = s.readyDraws := rfl
@[simp] theorem State.setcc_freePolls (v : Word) : (s.setcc v).freePolls = s.freePolls := rfl

/-! ### define -/

@[simp] theorem State.define_regs (r : Reg) (v : Word) : (s.define r v).regs = s.regs.set r.val v := rfl
@[simp] theorem State.define_pc (r : Reg) (v : Word) : (s.define r v).pc = s.pc := rfl
@[simp] theorem State.define_cond (r : Reg) (v : Word) : (s.define r v).cond = flagOf v := rfl
@[simp] theorem State.define_mem (r : Reg) (v : Word) : (s.define r v).mem = s.mem := rfl
@[simp] theorem State.define_ir (r : Reg) (v : Word) : (s.define r v).ir = s.ir := rfl
@[simp] theorem State.define_run (r : Reg) (v : Word) : (s.define r v).run = s.run := rfl
@[simp] theorem State.define_input (r : Reg) (v : Word) : (s.define r v).input = s.input := rfl
@[simp] theorem State.define_output (r : Reg) (v : Word) : (s.define r v).output = s.output := rfl
@[simp] theorem State.define_mode (r : Reg) (v : Word) : (s.define r v).mode = s.mode := rfl
@[simp] theorem State.define_flushed (r : Reg) (v : Word) : (s.define r v).flushed = s.flushed := rfl
@[simp] theorem State.define_readyDraws (r : Reg) (v : Word) : (s.define r v).readyDraws = s.readyDraws := rfl
@[simp] theorem State.define_freePolls (r : Reg) (v : Word) : (s.define r v).freePolls = s.freePolls := rfl

/-! ### setPc -/

@[simp] theorem State.setPc_regs (t : Word) : (s.setPc t).regs = s.regs := rfl
@[simp] theorem State.setPc_pc (t : Word) : (s.setPc t).pc = t := rfl
@[simp] theorem State.setPc_cond (t : Word) : (s.setPc t).cond = s.cond := rfl
@[simp] theorem State.setPc_mem (t : Word) : (s.setPc t).mem = s.mem := rfl
@[simp] theorem State.setPc_ir (t : Word) : (s.setPc t).ir = s.ir := rfl
@[simp] theorem State.setPc_run (t : Word) : (s.setPc t).run = s.run := rfl
@[simp] theorem State.setPc_input (t : Word) : (s.setPc t).input = s.input := rfl
@[simp] theorem State.setPc_output (t : Word) : (s.setPc t).output = s.output := rfl
@[simp] theorem State.setPc_mode (t : Word) : (s.setPc t).mode = s.mode := rfl
@[simp] theorem State.setPc_flushed (t : Word) : (s.setPc t).flushed = s.flushed := rfl
@[simp] theorem State.setPc_readyDraws (t : Word) : (s.setPc t).readyDraws = s.readyDraws := rfl
@[simp] theorem State.setPc_freePolls (t : Word) : (s.setPc t).freePolls = s.freePolls := rfl

/-! ### memWrite -/

@[simp] theorem State.memWrite_regs (a v : Word) : (s.memWrite a v).regs = s.regs := rfl
@[simp] theorem State.memWrite_pc (a v : Word) : (s.memWrite a v).pc = s.pc := rfl
@[simp] theorem State.memWrite_cond (a v : Word) : (s.memWrite a v).cond = s.cond := rfl
@[simp] theorem State.memWrite_mem (a v : Word) : (s.memWrite a v).mem = s.mem.write a v := rfl
@[simp] theorem State.memWrite_ir (a v : Word) : (s.memWrite a v).ir = s.ir := rfl
@[simp] theorem State.memWrite_run (a v : Word) : (s.memWrite a v).run = s.run := rfl
@[simp] theorem State.memWrite_input (a v : Word) : (s.memWrite a v).input = s.input := rfl
@[simp] theorem State.memWrite_output (a v : Word) : (s.memWrite a v).output = s.output := rfl
@[simp] theorem State.memWrite_mode (a v : Word) : (s.memWrite a v).mode = s.mode := rfl
@[simp] theorem State.memWrite_flushed (a v : Word) : (s.memWrite a v).flushed = s.flushed := rfl
@[simp] theorem State.memWrite_readyDraws (a v : Word) : (s.memWrite a v).readyDraws = s.readyDraws := rfl
@[simp] theorem State.memWrite_freePolls (a v : Word) : (s.memWrite a v).freePolls = s.freePolls := rfl

/-! ### consoleWriteAll -/

@[simp] theorem State.consoleWriteAll_regs (bs : List Byte) : (s.consoleWriteAll bs).regs = s.regs := rfl
@[simp] theorem State.consoleWriteAll_pc (bs : List Byte) : (s.consoleWriteAll bs).pc = s.pc := rfl
@[simp] theorem State.consoleWriteAll_cond (bs : List Byte) : (s.consoleWriteAll bs).cond = s.cond := rfl
@[simp] theorem State.consoleWriteAll_mem (bs : List Byte) : (s.consoleWriteAll bs).mem = s.mem := rfl
@[simp] theorem State.consoleWriteAll_ir (bs : List Byte) : (s.consoleWriteAll bs).ir = s.ir := rfl
@[simp] theorem State.consoleWriteAll_run (bs : List Byte) : (s.consoleWriteAll bs).run = s.run := rfl
@[simp] theorem State.consoleWriteAll_input (bs : List Byte) : (s.consoleWriteAll bs).input = s.input := rfl
@[simp] theorem State.consoleWriteAll_output (bs : List Byte) : (s.consoleWriteAll bs).output = s.output ++ bs := rfl
@[simp] theorem State.consoleWriteAll_mode (bs : List Byte) : (s.consoleWriteAll bs).mode = s.mode := rfl
@[simp] theorem State.consoleWriteAll_flushed (bs : List Byte) : (s.consoleWriteAll bs).flushed = s.flushed := rfl
@[simp] theorem State.consoleWriteAll_readyDraws (bs : List Byte) : (s.consoleWriteAll bs).readyDraws = s.readyDraws := rfl
@[simp] theorem State.consoleWriteAll_freePolls (bs : List Byte) : (s.consoleWriteAll bs).freePolls = s.freePolls := rfl

/-! ### consoleWrite -/

@[simp] theorem State.consoleWrite_regs (b : Byte) : (s.consoleWrite b).regs = s.regs := rfl
@[simp] theorem State.consoleWrite_pc (b : Byte) : (s.consoleWrite b).pc = s.pc := rfl
@[simp] theorem State.consoleWrite_cond (b : Byte) : (s.consoleWrite b).cond = s.cond := rfl
@[simp] theorem State.consoleWrite_mem (b : Byte) : (s.consoleWrite b).mem = s.mem := rfl
@[simp] theorem State.consoleWrite_ir (b : Byte) : (s.consoleWrite b).ir = s.ir := rfl
@[simp] theorem State.consoleWrite_run (b : Byte) : (s.consoleWrite b).run = s.run := rfl
@[simp] theorem State.consoleWrite_input (b : Byte) : (s.consoleWrite b).input = s.input := rfl
@[simp] theorem State.consoleWrite_output (b : Byte) : (s.consoleWrite b).output = s.output ++ [b] := rfl
@[simp] theorem State.consoleWrite_mode (b : Byte) : (s.consoleWrite b).mode = s.mode := rfl
@[simp] theorem State.consoleWrite_flushed (b : Byte) : (s.consoleWrite b).flushed = s.flushed := rfl
@[simp] theorem State.consoleWrite_readyDraws (b : Byte) : (s.consoleWrite b).readyDraws = s.readyDraws := rfl
@[simp] theorem State.consoleWrite_freePolls (b : Byte) : (s.consoleWrite b).freePolls = s.freePolls := rfl

/-! ### consoleFlush -/

@[simp] theorem State.consoleFlush_regs : (s.consoleFlush).regs = s.regs := rfl
@[simp] theorem State.consoleFlush_pc : (s.consoleFlush).pc = s.pc := rfl
@[simp] theorem State.consoleFlush_cond : (s.consoleFlush).cond = s.cond := rfl
@[simp] theorem State.consoleFlush_mem : (s.consoleFlush).mem = s.mem := rfl
@[simp] theorem State.consoleFlush_ir : (s.consoleFlush).ir = s.ir := rfl
@[simp] theorem State.consoleFlush_run : (s.consoleFlush).run = s.run := rfl
@[simp] theorem State.consoleFlush_input : (s.consoleFlush).input = s.input := rfl
@[simp] theorem State.consoleFlush_output : (s.consoleFlush).output = s.output := rfl
@[simp] theorem State.consoleFlush_mode : (s.consoleFlush).mode = s.mode := rfl
@[simp] theorem State.consoleFlush_flushed : (s.consoleFlush).flushed = s.output.length := rfl
@[simp] theorem State.consoleFlush_readyDraws : (s.consoleFlush).readyDraws = s.readyDraws := rfl
@[simp] theorem State.consoleFlush_freePolls : (s.consoleFlush).freePolls = s.freePolls := rfl

/-! ### enterRawMode -/

@[simp] theorem State.enterRawMode_regs : (s.enterRawMode).regs = s.regs := rfl
@[simp] theorem State.enterRawMode_pc : (s.enterRawMode).pc = s.pc := rfl
@[simp] theorem State.enterRawMode_cond : (s.enterRawMode).cond = s.cond := rfl
@[simp] theorem State.enterRawMode_mem : (s.enterRawMode).mem = s.mem := rfl
@[simp] theorem State.enterRawMode_ir : (s.enterRawMode).ir = s.ir := rfl
@[simp] theorem State.enterRawMode_run : (s.enterRawMode).run = s.run := rfl
@[simp] theorem State.enterRawMode_input : (s.enterRawMode).input = s.input := rfl
@[simp] theorem State.enterRawMode_output : (s.enterRawMode).output = s.output := rfl
@[simp] theorem State.enterRawMode_mode : (s.enterRawMode).mode = .raw := rfl
@[simp] theorem State.enterRawMode_flushed : (s.enterRawMode).flushed = s.flushed := rfl
@[simp] theorem State.enterRawMode_readyDraws : (s.enterRawMode).readyDraws = s.readyDraws := rfl
@[simp] theorem State.enterRawMode_freePolls : (s.enterRawMode).freePolls = s.freePolls := rfl

/-! ### endRun -/

@[simp] theorem State.endRun_regs (r : RunState) : (s.endRun r).regs = s.regs := rfl
@[simp] theorem State.endRun_pc (r : RunState) : (s.endRun r).pc = s.pc := rfl
@[simp] theorem State.endRun_cond (r : RunState) : (s.endRun r).cond = s.cond := rfl
@[simp] theorem State.endRun_mem (r : RunState) : (s.endRun r).mem = s.mem := rfl
@[simp] theorem State.endRun_ir (r : RunState) : (s.endRun r).ir = s.ir := rfl
@[simp] theorem State.endRun_run (r : RunState) : (s.endRun r).run = r := rfl
@[simp] theorem State.endRun_input (r : RunState) : (s.endRun r).input = s.input := rfl
@[simp] theorem State.endRun_output (r : RunState) : (s.endRun r).output = s.output := rfl
@[simp] theorem State.endRun_mode (r : RunState) : (s.endRun r).mode = .original := rfl
@[simp] theorem State.endRun_flushed (r : RunState) : (s.endRun r).flushed = s.flushed := rfl
@[simp] theorem State.endRun_readyDraws (r : RunState) : (s.endRun r).readyDraws = s.readyDraws := rfl
@[simp] theorem State.endRun_freePolls (r : RunState) : (s.endRun r).freePolls = s.freePolls := rfl

/-! ### supply -/

@[simp] theorem State.supply_regs (b : Byte) : (s.supply b).regs = s.regs := rfl
@[simp] theorem State.supply_pc (b : Byte) : (s.supply b).pc = s.pc := rfl
@[simp] theorem State.supply_cond (b : Byte) : (s.supply b).cond = s.cond := rfl
@[simp] theorem State.supply_mem (b : Byte) : (s.supply b).mem = s.mem := rfl
@[simp] theorem State.supply_ir (b : Byte) : (s.supply b).ir = s.ir := rfl
@[simp] theorem State.supply_run (b : Byte) : (s.supply b).run = s.run := rfl
@[simp] theorem State.supply_input (b : Byte) : (s.supply b).input = s.input ++ [b] := rfl
@[simp] theorem State.supply_output (b : Byte) : (s.supply b).output = s.output := rfl
@[simp] theorem State.supply_mode (b : Byte) : (s.supply b).mode = s.mode := rfl
@[simp] theorem State.supply_flushed (b : Byte) : (s.supply b).flushed = s.flushed := rfl
@[simp] theorem State.supply_readyDraws (b : Byte) : (s.supply b).readyDraws = s.readyDraws := rfl
@[simp] theorem State.supply_freePolls (b : Byte) : (s.supply b).freePolls = s.freePolls := rfl

/-! ### settleDraw -/

@[simp] theorem State.settleDraw_regs (ready : Bool) : (s.settleDraw ready).regs = s.regs := rfl
@[simp] theorem State.settleDraw_pc (ready : Bool) : (s.settleDraw ready).pc = s.pc := rfl
@[simp] theorem State.settleDraw_cond (ready : Bool) : (s.settleDraw ready).cond = s.cond := rfl
@[simp] theorem State.settleDraw_mem (ready : Bool) : (s.settleDraw ready).mem = s.mem := rfl
@[simp] theorem State.settleDraw_ir (ready : Bool) : (s.settleDraw ready).ir = s.ir := rfl
@[simp] theorem State.settleDraw_run (ready : Bool) : (s.settleDraw ready).run = s.run := rfl
@[simp] theorem State.settleDraw_input (ready : Bool) : (s.settleDraw ready).input = s.input := rfl
@[simp] theorem State.settleDraw_output (ready : Bool) : (s.settleDraw ready).output = s.output := rfl
@[simp] theorem State.settleDraw_mode (ready : Bool) : (s.settleDraw ready).mode = s.mode := rfl
@[simp] theorem State.settleDraw_flushed (ready : Bool) : (s.settleDraw ready).flushed = s.flushed := rfl
@[simp] theorem State.settleDraw_readyDraws (ready : Bool) : (s.settleDraw ready).readyDraws = s.readyDraws ++ [ready] := rfl
@[simp] theorem State.settleDraw_freePolls (ready : Bool) : (s.settleDraw ready).freePolls = s.freePolls := rfl

/-! ### Reading a register after an update -/

theorem State.reg_setReg (r q : Reg) (v : Word) : (s.setReg r v).reg q = if q = r then v else s.reg q := by
  simp [State.reg, Vector.getElem_set, Fin.ext_iff, eq_comm]

@[simp] theorem State.reg_setReg_self (r : Reg) (v : Word) : (s.setReg r v).reg r = v := by
  simp [State.reg_setReg]

theorem State.reg_setReg_of_ne {r q : Reg} (h : q ≠ r) (v : Word) : (s.setReg r v).reg q = s.reg q := by
  simp [State.reg_setReg, h]

/-- A register is read from `regs` alone. -/
theorem State.reg_congr {s t : State} (h : t.regs = s.regs) (q : Reg) : t.reg q = s.reg q := by
  simp [State.reg, h]

@[simp] theorem State.reg_setcc (v : Word) (q : Reg) : (s.setcc v).reg q = s.reg q := rfl
@[simp] theorem State.reg_setPc (t : Word) (q : Reg) : (s.setPc t).reg q = s.reg q := rfl
@[simp] theorem State.reg_memWrite (a v : Word) (q : Reg) : (s.memWrite a v).reg q = s.reg q := rfl
@[simp] theorem State.reg_consoleWriteAll (bs : List Byte) (q : Reg) : (s.consoleWriteAll bs).reg q = s.reg q := rfl
@[simp] theorem State.reg_consoleWrite (b : Byte) (q : Reg) : (s.consoleWrite b).reg q = s.reg q := rfl
@[simp] theorem State.reg_consoleFlush (q : Reg) : (s.consoleFlush).reg q = s.reg q := rfl
@[simp] theorem State.reg_enterRawMode (q : Reg) : (s.enterRawMode).reg q = s.reg q := rfl
@[simp] theorem State.reg_endRun (r : RunState) (q : Reg) : (s.endRun r).reg q = s.reg q := rfl
@[simp] theorem State.reg_supply (b : Byte) (q : Reg) : (s.supply b).reg q = s.reg q := rfl
@[simp] theorem State.reg_settleDraw (ready : Bool) (q : Reg) : (s.settleDraw ready).reg q = s.reg q := rfl

theorem State.reg_define (r q : Reg) (v : Word) : (s.define r v).reg q = if q = r then v else s.reg q :=
  State.reg_setReg s r q v

end Sys2Proof.Machine
end

