-- ==== Sys2Proof/Laws/Ops.lean ====
section
/-! SUPPORT. What each shared operation can do, said once: the poll, the blocking read, the memory port and the fetch. -/

namespace Sys2Proof.Machine

variable (s : State)

/-! ### The console port -/

/-- A draw takes the next dictated answer, or asks the free value. -/
theorem State.drawReady_cases :
    (∃ r rest, s.readyDraws = r :: rest ∧ s.drawReady = (r, { s with readyDraws := rest })) ∨
      (s.readyDraws = [] ∧
        s.drawReady = (Config.pollReady s.freePolls, { s with freePolls := s.freePolls + 1 })) := by
  unfold State.drawReady
  cases h : s.readyDraws with
  | nil => exact .inr ⟨rfl, rfl⟩
  | cons r rest => exact .inl ⟨r, rest, rfl, rfl⟩

/-- A draw consumes no input. -/
@[simp] theorem State.drawReady_input : s.drawReady.2.input = s.input := by
  obtain ⟨r, rest, -, e⟩ | ⟨-, e⟩ := s.drawReady_cases <;> rw [e]

/-- A poll answers the next byte and consumes it, if the draw says ready and there is one; otherwise it answers `none`. -/
theorem State.consolePoll_cases :
    (∃ b rest, s.drawReady.1 = true ∧ s.input = b :: rest ∧
        s.consolePoll = (some b, { s.drawReady.2 with input := rest })) ∨
      ((s.drawReady.1 = false ∨ s.input = []) ∧ s.consolePoll = (none, s.drawReady.2)) := by
  have hi := s.drawReady_input
  unfold State.consolePoll
  generalize s.drawReady = d at *
  obtain ⟨ready, s1⟩ := d
  cases ready with
  | false => exact .inr ⟨.inl rfl, rfl⟩
  | true =>
    cases h : s1.input with
    | nil => exact .inr ⟨.inr (by simpa [h] using hi.symm), by simp [h]⟩
    | cons b rest => exact .inl ⟨b, rest, rfl, by simpa [h] using hi.symm, by simp [h]⟩

/-- A blocking read consumes the next byte; without one there is nothing to read. -/
theorem State.consoleRead_cases :
    (∃ b rest, s.input = b :: rest ∧ s.consoleRead = some (b, { s with input := rest })) ∨
      (s.input = [] ∧ s.consoleRead = none) := by
  unfold State.consoleRead
  cases h : s.input with
  | nil => exact .inr ⟨rfl, rfl⟩
  | cons b rest => exact .inl ⟨b, rest, rfl, rfl⟩

/-! ### What a poll and a keyboard refresh leave alone -/

/-- The parts of the state that no memory read touches. -/
structure PortFrame (s t : State) : Prop where
  regs : t.regs = s.regs
  pc : t.pc = s.pc
  cond : t.cond = s.cond
  ir : t.ir = s.ir
  run : t.run = s.run
  output : t.output = s.output
  mode : t.mode = s.mode
  flushed : t.flushed = s.flushed

theorem State.drawReady_frame : PortFrame s s.drawReady.2 ∧ s.drawReady.2.mem = s.mem := by
  obtain ⟨r, rest, -, e⟩ | ⟨-, e⟩ := s.drawReady_cases <;> rw [e] <;>
    exact ⟨⟨rfl, rfl, rfl, rfl, rfl, rfl, rfl, rfl⟩, rfl⟩

theorem State.consolePoll_frame : PortFrame s s.consolePoll.2 ∧ s.consolePoll.2.mem = s.mem := by
  obtain ⟨f, m⟩ := s.drawReady_frame
  obtain ⟨b, rest, -, -, e⟩ | ⟨-, e⟩ := s.consolePoll_cases <;> rw [e]
  · exact ⟨⟨f.1, f.2, f.3, f.4, f.5, f.6, f.7, f.8⟩, m⟩
  · exact ⟨f, m⟩

theorem State.consoleWriteAll_nil : s.consoleWriteAll [] = s := by simp [State.consoleWriteAll]

/-- A refresh writes 0x8000 to KBSR and the byte to KBDR, or 0 to KBSR. -/
theorem State.refreshKeyboard_cases :
    (∃ b, s.consolePoll.1 = some b ∧ s.refreshKeyboard =
        (s.consolePoll.2.memWrite kbsrAddr 0x8000#16).memWrite kbdrAddr (zext8 b)) ∨
      (s.consolePoll.1 = none ∧ s.refreshKeyboard = s.consolePoll.2.memWrite kbsrAddr 0x0000#16) := by
  unfold State.refreshKeyboard
  generalize s.consolePoll = p
  obtain ⟨_ | b, s1⟩ := p
  · exact .inr ⟨rfl, rfl⟩
  · exact .inl ⟨b, rfl, rfl⟩

theorem State.refreshKeyboard_frame : PortFrame s s.refreshKeyboard := by
  obtain ⟨f, -⟩ := s.consolePoll_frame
  obtain ⟨b, -, e⟩ | ⟨-, e⟩ := s.refreshKeyboard_cases <;> rw [e] <;>
    exact ⟨f.1, f.2, f.3, f.4, f.5, f.6, f.7, f.8⟩

/-- A refresh changes no cell but the two keyboard cells. -/
theorem State.refreshKeyboard_read {a : Word} (h1 : a ≠ kbsrAddr) (h2 : a ≠ kbdrAddr) :
    s.refreshKeyboard.mem.read a = s.mem.read a := by
  obtain ⟨-, m⟩ := s.consolePoll_frame
  obtain ⟨b, -, e⟩ | ⟨-, e⟩ := s.refreshKeyboard_cases <;> rw [e] <;>
    simp [Memory.read_write_of_ne, h1, h2, m]

theorem State.refreshKeyboard_wf (wf : s.mem.wf = true) : s.refreshKeyboard.mem.wf = true := by
  obtain ⟨-, m⟩ := s.consolePoll_frame
  obtain ⟨b, -, e⟩ | ⟨-, e⟩ := s.refreshKeyboard_cases <;> rw [e]
  · exact Memory.write_wf (Memory.write_wf (by rw [m]; exact wf) _ _) _ _
  · exact Memory.write_wf (by rw [m]; exact wf) _ _

/-! ### The memory port -/

/-- A read is plain, or it is of KBSR and refreshes the keyboard cells first. -/
theorem State.memRead_cases (a : Word) :
    (a ≠ kbsrAddr ∧ s.memRead a = (s.mem.read a, s)) ∨
      (a = kbsrAddr ∧ s.memRead a = (s.refreshKeyboard.mem.read kbsrAddr, s.refreshKeyboard)) := by
  unfold State.memRead
  split
  · rename_i h
    subst h
    exact .inr ⟨rfl, rfl⟩
  · exact .inl ⟨by assumption, rfl⟩

theorem State.memRead_frame (a : Word) : PortFrame s (s.memRead a).2 := by
  obtain ⟨-, e⟩ | ⟨-, e⟩ := s.memRead_cases a <;> rw [e]
  · exact ⟨rfl, rfl, rfl, rfl, rfl, rfl, rfl, rfl⟩
  · exact s.refreshKeyboard_frame

@[simp] theorem State.memRead_regs (a : Word) : (s.memRead a).2.regs = s.regs := (s.memRead_frame a).regs
@[simp] theorem State.memRead_pc (a : Word) : (s.memRead a).2.pc = s.pc := (s.memRead_frame a).pc
@[simp] theorem State.memRead_cond (a : Word) : (s.memRead a).2.cond = s.cond := (s.memRead_frame a).cond
@[simp] theorem State.memRead_ir (a : Word) : (s.memRead a).2.ir = s.ir := (s.memRead_frame a).ir
@[simp] theorem State.memRead_run (a : Word) : (s.memRead a).2.run = s.run := (s.memRead_frame a).run
@[simp] theorem State.memRead_output (a : Word) : (s.memRead a).2.output = s.output := (s.memRead_frame a).output
@[simp] theorem State.memRead_mode (a : Word) : (s.memRead a).2.mode = s.mode := (s.memRead_frame a).mode
@[simp] theorem State.memRead_flushed (a : Word) : (s.memRead a).2.flushed = s.flushed := (s.memRead_frame a).flushed

@[simp] theorem State.memRead_reg (a : Word) (r : Reg) : (s.memRead a).2.reg r = s.reg r :=
  State.reg_congr (s.memRead_regs a) r

/-- A read changes no cell but the two keyboard cells. -/
theorem State.memRead_read (a : Word) {b : Word} (h1 : b ≠ kbsrAddr) (h2 : b ≠ kbdrAddr) :
    (s.memRead a).2.mem.read b = s.mem.read b := by
  obtain ⟨-, e⟩ | ⟨-, e⟩ := s.memRead_cases a <;> rw [e]
  exact s.refreshKeyboard_read h1 h2

theorem State.memRead_wf (a : Word) (wf : s.mem.wf = true) : (s.memRead a).2.mem.wf = true := by
  obtain ⟨-, e⟩ | ⟨-, e⟩ := s.memRead_cases a <;> rw [e]
  · exact wf
  · exact s.refreshKeyboard_wf wf

theorem State.memWrite_wf (wf : s.mem.wf = true) (a v : Word) : (s.memWrite a v).mem.wf = true :=
  Memory.write_wf wf a v

/-- A read of KBSR gives 0 and consumes nothing, or consumes the next byte. -/
theorem State.memRead_kbsr_input (wf : s.mem.wf = true) :
    ((s.memRead kbsrAddr).1 = 0x0000#16 ∧ (s.memRead kbsrAddr).2.input = s.input) ∨
      ∃ b, s.input = b :: (s.memRead kbsrAddr).2.input := by
  have wf1 : s.consolePoll.2.mem.wf = true := by rw [s.consolePoll_frame.2]; exact wf
  have e : s.memRead kbsrAddr = (s.refreshKeyboard.mem.read kbsrAddr, s.refreshKeyboard) := by simp [State.memRead]
  rw [e]
  obtain ⟨b, rest, -, hi, ep⟩ | ⟨-, ep⟩ := s.consolePoll_cases
  · right
    refine ⟨b, ?_⟩
    rw [State.refreshKeyboard, ep]
    exact hi
  · left
    rw [State.refreshKeyboard, ep]
    rw [ep] at wf1
    exact ⟨Memory.read_write_self wf1 _ _, s.drawReady_input⟩

/-! ### The memory port does not look at the rest of the state -/

/-- `s` with other registers, `pc`, flags, fetched word, run state, output, flush mark and mode: the memory port looks at none of
them. -/
def State.withRest (s r : State) : State :=
  { r with mem := s.mem, input := s.input, readyDraws := s.readyDraws, freePolls := s.freePolls }

theorem State.memRead_withRest (r : State) (a : Word) :
    (s.withRest r).memRead a = ((s.memRead a).1, (s.memRead a).2.withRest r) := by
  simp only [State.memRead, State.refreshKeyboard, State.consolePoll, State.drawReady, State.withRest]
  cases hd : s.readyDraws with
  | nil =>
    cases Config.pollReady s.freePolls <;> cases h : s.input <;> split <;> simp_all [State.memWrite]
  | cons d rest => cases d <;> cases h : s.input <;> split <;> simp_all [State.memWrite]

/-- The memory port does not look at the flags. -/
theorem State.memRead_with_cond (c : BitVec 3) (a : Word) :
    ({ s with cond := c } : State).memRead a = ((s.memRead a).1, { (s.memRead a).2 with cond := c }) := by
  have e := s.memRead_withRest { s with cond := c } a
  have f := s.memRead_frame a
  rw [show s.withRest { s with cond := c } = { s with cond := c } from rfl] at e
  rw [e]
  simp only [State.withRest, f.regs, f.pc, f.ir, f.run, f.output, f.mode, f.flushed]

/-- The memory port does not look at the fetched word. -/
theorem State.memRead_with_ir (w : Word) (a : Word) :
    ({ s with ir := w } : State).memRead a = ((s.memRead a).1, { (s.memRead a).2 with ir := w }) := by
  have e := s.memRead_withRest { s with ir := w } a
  have f := s.memRead_frame a
  rw [show s.withRest { s with ir := w } = { s with ir := w } from rfl] at e
  rw [e]
  simp only [State.withRest, f.regs, f.pc, f.cond, f.run, f.output, f.mode, f.flushed]

/-- The memory port does not look at the run state. -/
theorem State.memRead_with_run (r : RunState) (a : Word) :
    ({ s with run := r } : State).memRead a = ((s.memRead a).1, { (s.memRead a).2 with run := r }) := by
  have e := s.memRead_withRest { s with run := r } a
  have f := s.memRead_frame a
  rw [show s.withRest { s with run := r } = { s with run := r } from rfl] at e
  rw [e]
  simp only [State.withRest, f.regs, f.pc, f.cond, f.ir, f.output, f.mode, f.flushed]

/-! ### Fetch -/

@[simp] theorem State.fetch_regs : s.fetch.regs = s.regs := s.memRead_regs s.pc
@[simp] theorem State.fetch_pc : s.fetch.pc = s.pc + 1 := rfl
@[simp] theorem State.fetch_cond : s.fetch.cond = s.cond := s.memRead_cond s.pc
@[simp] theorem State.fetch_ir : s.fetch.ir = (s.memRead s.pc).1 := rfl
@[simp] theorem State.fetch_mem : s.fetch.mem = (s.memRead s.pc).2.mem := rfl
@[simp] theorem State.fetch_run : s.fetch.run = s.run := s.memRead_run s.pc
@[simp] theorem State.fetch_input : s.fetch.input = (s.memRead s.pc).2.input := rfl
@[simp] theorem State.fetch_output : s.fetch.output = s.output := s.memRead_output s.pc
@[simp] theorem State.fetch_mode : s.fetch.mode = s.mode := s.memRead_mode s.pc
@[simp] theorem State.fetch_flushed : s.fetch.flushed = s.flushed := s.memRead_flushed s.pc
@[simp] theorem State.fetch_readyDraws : s.fetch.readyDraws = (s.memRead s.pc).2.readyDraws := rfl
@[simp] theorem State.fetch_freePolls : s.fetch.freePolls = (s.memRead s.pc).2.freePolls := rfl
@[simp] theorem State.fetch_reg (r : Reg) : s.fetch.reg r = s.reg r := State.reg_congr s.fetch_regs r

end Sys2Proof.Machine
end

