-- ==== Sys2Proof/Laws/PerInstr.lean ====
section
/-! SUPPORT. Families of statements made per instruction: one lemma per constructor of Instr. -/

namespace Sys2Proof.Laws

namespace Opcode

/-- The word of an instruction has the opcode number R72 gives it in its top four bits (R71). -/
def Statement (i : Instr) : Prop := opcodeField (encode i) = i.opcode

theorem br (nzp : BitVec 3) (off : BitVec 9) : Statement (.br nzp off) := by
  simp only [Statement, encode, opcodeField, Instr.opcode]
  apply BitVec.eq_of_getLsbD_eq
  intro i hi
  interval_cases i <;> simp [place]

theorem addReg (dr : Reg) (sr1 : Reg) (sr2 : Reg) : Statement (.addReg dr sr1 sr2) := by
  simp only [Statement, encode, opcodeField, Instr.opcode]
  apply BitVec.eq_of_getLsbD_eq
  intro i hi
  interval_cases i <;> simp [place]

theorem addImm (dr : Reg) (sr1 : Reg) (imm : BitVec 5) : Statement (.addImm dr sr1 imm) := by
  simp only [Statement, encode, opcodeField, Instr.opcode]
  apply BitVec.eq_of_getLsbD_eq
  intro i hi
  interval_cases i <;> simp [place]

theorem ld (dr : Reg) (off : BitVec 9) : Statement (.ld dr off) := by
  simp only [Statement, encode, opcodeField, Instr.opcode]
  apply BitVec.eq_of_getLsbD_eq
  intro i hi
  interval_cases i <;> simp [place]

theorem st (sr : Reg) (off : BitVec 9) : Statement (.st sr off) := by
  simp only [Statement, encode, opcodeField, Instr.opcode]
  apply BitVec.eq_of_getLsbD_eq
  intro i hi
  interval_cases i <;> simp [place]

theorem jsr (off : BitVec 11) : Statement (.jsr off) := by
  simp only [Statement, encode, opcodeField, Instr.opcode]
  apply BitVec.eq_of_getLsbD_eq
  intro i hi
  interval_cases i <;> simp [place]

theorem jsrr (base : Reg) : Statement (.jsrr base) := by
  simp only [Statement, encode, opcodeField, Instr.opcode]
  apply BitVec.eq_of_getLsbD_eq
  intro i hi
  interval_cases i <;> simp [place]

theorem andReg (dr : Reg) (sr1 : Reg) (sr2 : Reg) : Statement (.andReg dr sr1 sr2) := by
  simp only [Statement, encode, opcodeField, Instr.opcode]
  apply BitVec.eq_of_getLsbD_eq
  intro i hi
  interval_cases i <;> simp [place]

theorem andImm (dr : Reg) (sr1 : Reg) (imm : BitVec 5) : Statement (.andImm dr sr1 imm) := by
  simp only [Statement, encode, opcodeField, Instr.opcode]
  apply BitVec.eq_of_getLsbD_eq
  intro i hi
  interval_cases i <;> simp [place]

theorem ldr (dr : Reg) (base : Reg) (off : BitVec 6) : Statement (.ldr dr base off) := by
  simp only [Statement, encode, opcodeField, Instr.opcode]
  apply BitVec.eq_of_getLsbD_eq
  intro i hi
  interval_cases i <;> simp [place]

theorem str (sr : Reg) (base : Reg) (off : BitVec 6) : Statement (.str sr base off) := by
  simp only [Statement, encode, opcodeField, Instr.opcode]
  apply BitVec.eq_of_getLsbD_eq
  intro i hi
  interval_cases i <;> simp [place]

theorem rti : Statement .rti := by
  unfold Statement
  decide

theorem not (dr : Reg) (sr : Reg) : Statement (.not dr sr) := by
  simp only [Statement, encode, opcodeField, Instr.opcode]
  apply BitVec.eq_of_getLsbD_eq
  intro i hi
  interval_cases i <;> simp [place]

theorem ldi (dr : Reg) (off : BitVec 9) : Statement (.ldi dr off) := by
  simp only [Statement, encode, opcodeField, Instr.opcode]
  apply BitVec.eq_of_getLsbD_eq
  intro i hi
  interval_cases i <;> simp [place]

theorem sti (sr : Reg) (base : Reg) (off : BitVec 6) : Statement (.sti sr base off) := by
  simp only [Statement, encode, opcodeField, Instr.opcode]
  apply BitVec.eq_of_getLsbD_eq
  intro i hi
  interval_cases i <;> simp [place]

theorem jmp (base : Reg) : Statement (.jmp base) := by
  simp only [Statement, encode, opcodeField, Instr.opcode]
  apply BitVec.eq_of_getLsbD_eq
  intro i hi
  interval_cases i <;> simp [place]

theorem res : Statement .res := by
  unfold Statement
  decide

theorem lea (dr : Reg) (off : BitVec 9) : Statement (.lea dr off) := by
  simp only [Statement, encode, opcodeField, Instr.opcode]
  apply BitVec.eq_of_getLsbD_eq
  intro i hi
  interval_cases i <;> simp [place]

theorem trap (vect : Byte) : Statement (.trap vect) := by
  simp only [Statement, encode, opcodeField, Instr.opcode]
  apply BitVec.eq_of_getLsbD_eq
  intro i hi
  interval_cases i <;> simp [place]

end Opcode

end Sys2Proof.Laws
end

