-- ==== Sys2Proof/Laws/Trap.lean ====
section
/-! SUPPORT. What a string pass and a blocking routine can do. -/

namespace Sys2Proof.Machine

/-- What a string routine leaves alone: everything but output, keyboard cells, input and poll answers. -/
structure StringFrame (s t : State) : Prop where
  regs : t.regs = s.regs
  pc : t.pc = s.pc
  cond : t.cond = s.cond
  ir : t.ir = s.ir
  run : t.run = s.run
  mode : t.mode = s.mode
  flushed : t.flushed = s.flushed
  mem : ∀ b, b ≠ kbsrAddr → b ≠ kbdrAddr → t.mem.read b = s.mem.read b
  wf : s.mem.wf = true → t.mem.wf = true
  output : ∃ bs, t.output = s.output ++ bs

theorem StringFrame.refl (s : State) : StringFrame s s :=
  ⟨rfl, rfl, rfl, rfl, rfl, rfl, rfl, fun _ _ _ => rfl, id, [], by simp⟩

theorem StringFrame.trans {s t u : State} (h : StringFrame s t) (k : StringFrame t u) : StringFrame s u := by
  obtain ⟨bs, hb⟩ := h.output
  obtain ⟨cs, hc⟩ := k.output
  exact ⟨k.regs.trans h.regs, k.pc.trans h.pc, k.cond.trans h.cond, k.ir.trans h.ir, k.run.trans h.run,
    k.mode.trans h.mode, k.flushed.trans h.flushed, fun b h1 h2 => (k.mem b h1 h2).trans (h.mem b h1 h2),
    fun w => k.wf (h.wf w), bs ++ cs, by rw [hc, hb, List.append_assoc]⟩

theorem StringFrame.memRead (s : State) (a : Word) : StringFrame s (s.memRead a).2 :=
  ⟨by simp, by simp, by simp, by simp, by simp, by simp, by simp, fun _ h1 h2 => s.memRead_read a h1 h2,
    s.memRead_wf a, [], by simp⟩

theorem StringFrame.consoleWriteAll (s : State) (bs : List Byte) : StringFrame s (s.consoleWriteAll bs) :=
  ⟨rfl, rfl, rfl, rfl, rfl, rfl, rfl, fun _ _ _ => rfl, id, bs, rfl⟩

/-- The loop leaves alone what a string routine leaves alone. -/
theorem State.stringLoop_frame (form : StringForm) (n : Nat) (a : Word) (s : State) :
    StringFrame s (State.stringLoop form n a s) := by
  induction n generalizing a s with
  | zero => exact StringFrame.refl s
  | succ n ih =>
    unfold State.stringLoop
    split
    · exact StringFrame.memRead s a
    · exact ((StringFrame.memRead s a).trans (StringFrame.consoleWriteAll _ _)).trans (ih _ _)

theorem State.printString_frame (s : State) (form : StringForm) (a : Word) : StringFrame s (s.printString form a) :=
  State.stringLoop_frame form s.readsAtHand a s

/-- A string routine does not look at the flags. -/
theorem State.stringLoop_with_cond (form : StringForm) (c : BitVec 3) (n : Nat) (a : Word) (s : State) :
    State.stringLoop form n a { s with cond := c } = { State.stringLoop form n a s with cond := c } := by
  induction n generalizing a s with
  | zero => rfl
  | succ n ih =>
    rw [State.stringLoop, State.stringLoop, State.memRead_with_cond]
    split
    · rfl
    · exact ih (a + 1) ((s.memRead a).2.consoleWriteAll _)

theorem State.printString_with_cond (s : State) (c : BitVec 3) (form : StringForm) (a : Word) :
    ({ s with cond := c } : State).printString form a = { s.printString form a with cond := c } :=
  State.stringLoop_with_cond form c s.readsAtHand a s

/-- Where the loop has reads enough it leaves the state the string's relation names. -/
theorem PrintsTo.loop_eq {form : StringForm} {a : Word} {s t : State} {n : Nat} (p : PrintsTo form a s n t) :
    ∀ m, n ≤ m → State.stringLoop form m a s = t := by
  induction p with
  | stop z =>
    rintro (_ | m) h
    · omega
    · rw [State.stringLoop, if_pos z]
  | more z _ ih =>
    rintro (_ | m) h
    · omega
    · rw [State.stringLoop, if_neg z]
      exact ih m (by omega)

/-- A string has one end. -/
theorem PrintsTo.unique {form : StringForm} {a : Word} {s t u : State} {n k : Nat} (p : PrintsTo form a s n t)
    (q : PrintsTo form a s k u) : t = u :=
  (p.loop_eq (max n k) (le_max_left n k)).symm.trans (q.loop_eq (max n k) (le_max_right n k))

/-- A string makes at least one read. -/
theorem PrintsTo.pos {form : StringForm} {n : Nat} {a : Word} {s t : State} (p : PrintsTo form a s n t) : 0 < n := by
  cases p <;> omega

/-- A string does not look at the run state. -/
theorem PrintsTo.with_run {form : StringForm} {n : Nat} {a : Word} {s t : State} (p : PrintsTo form a s n t)
    (r : RunState) : PrintsTo form a { s with run := r } n { t with run := r } := by
  induction p with
  | @stop a s z =>
    have e := s.memRead_with_run r a
    have q := PrintsTo.stop (form := form) (a := a) (s := { s with run := r }) (by rw [e]; exact z)
    rw [e] at q
    exact q
  | @more a s t n z q ih =>
    have e := s.memRead_with_run r a
    exact .more (by rw [e]; exact z) (by rw [e]; exact ih)

/-- Every nonzero word writes at least one byte. -/
theorem StringForm.bytes_pos (form : StringForm) (w : Word) : 1 ≤ (form.bytes w).length := by
  cases form
  · simp [StringForm.bytes]
  · simp only [StringForm.bytes]
    split <;> simp

/-- If every string from KBSR with input `input` ends within `m` reads, a string from `d` words before KBSR ends within `d + m`. -/
theorem PrintsTo.ends_before_kbsr {form : StringForm} {input : List Byte} {m : Nat} (pos : 1 ≤ m)
    (atKbsr : ∀ s : State, s.mem.wf = true → s.input = input → ∃ n t, n ≤ m ∧ PrintsTo form kbsrAddr s n t)
    (d : Nat) (a : Word) (s : State) (wf : s.mem.wf = true) (hi : s.input = input)
    (hd : (kbsrAddr - a).toNat = d) : ∃ n t, n ≤ d + m ∧ PrintsTo form a s n t := by
  induction d generalizing a s with
  | zero =>
    obtain rfl : a = kbsrAddr := by bv_omega
    rw [Nat.zero_add]
    exact atKbsr s wf hi
  | succ d ih =>
    have ne : a ≠ kbsrAddr := by
      rintro rfl
      simp at hd
    have e : s.memRead a = (s.mem.read a, s) := by simp [State.memRead, ne]
    by_cases z : (s.memRead a).1 = 0x0000#16
    · exact ⟨1, _, by omega, .stop z⟩
    · obtain ⟨n, t, h, p⟩ := ih (a + 1) ((s.memRead a).2.consoleWriteAll (form.bytes (s.memRead a).1))
        (by rw [e]; exact wf) (by rw [e]; exact hi) (by bv_omega)
      exact ⟨n + 1, t, by omega, .more z p⟩

/-- From KBSR a string ends within one read, or 65536 more for each byte of the input. (`c` is 65536, a variable for the
arithmetic.) -/
theorem PrintsTo.ends_from_kbsr {form : StringForm} {c : Nat} (hc : c = 65535 + 1) (input : List Byte) (s : State)
    (wf : s.mem.wf = true) (hi : s.input = input) :
    ∃ n t, n ≤ c * input.length + 1 ∧ PrintsTo form kbsrAddr s n t := by
  induction input generalizing s with
  | nil =>
    obtain ⟨z, -⟩ | ⟨b, e⟩ := s.memRead_kbsr_input wf
    · exact ⟨1, _, by omega, .stop z⟩
    · rw [hi] at e
      cases e
  | cons b rest ih =>
    by_cases z : (s.memRead kbsrAddr).1 = 0x0000#16
    · exact ⟨1, _, by omega, .stop z⟩
    · obtain ⟨z0, -⟩ | ⟨b1, e⟩ := s.memRead_kbsr_input wf
      · exact absurd z0 z
      · rw [hi] at e
        obtain ⟨n, t, h, p⟩ := PrintsTo.ends_before_kbsr (by omega) ih 65535 (kbsrAddr + 1)
          ((s.memRead kbsrAddr).2.consoleWriteAll (form.bytes (s.memRead kbsrAddr).1)) (s.memRead_wf _ wf)
          (List.cons.inj e).2.symm (by decide)
        refine ⟨n + 1, t, ?_, .more z p⟩
        rw [List.length_cons, Nat.mul_succ]
        omega

/-- Every string ends with the input at hand, within `readsAtHand` reads. -/
theorem PrintsTo.ends {s : State} (wf : s.mem.wf = true) (form : StringForm) (a : Word) :
    ∃ n t, n ≤ s.readsAtHand ∧ PrintsTo form a s n t := by
  obtain ⟨n, t, h, p⟩ := PrintsTo.ends_before_kbsr (form := form) (m := 65536 * s.input.length + 1) (by omega)
    (fun u w e => by rw [← e]; exact PrintsTo.ends_from_kbsr rfl _ u w rfl) _ a s wf rfl rfl
  refine ⟨n, t, h.trans ?_, p⟩
  have d := (kbsrAddr - a).isLt
  rw [State.readsAtHand, Nat.mul_succ]
  omega

/-- PUTS and PUTSP leave the state in which their string ends, however long it is. -/
theorem State.printString_eq {s t : State} {form : StringForm} {a : Word} {n : Nat} (wf : s.mem.wf = true)
    (p : PrintsTo form a s n t) : s.printString form a = t := by
  obtain ⟨k, u, h, q⟩ := PrintsTo.ends wf form a
  rw [State.printString, q.loop_eq _ h, q.unique p]

/-- Read by read, a string under way ends as its relation says. -/
theorem PrintsTo.stringReads_eq {form : StringForm} {a : Word} {s t : State} {n : Nat} (p : PrintsTo form a s n t) :
    State.stringReads n (s.atString form a) = some { t with run := .running } := by
  induction p with
  | @stop a s z =>
    have e := s.memRead_with_run (.printing form a) a
    simp [State.stringReads, State.stringRead, State.atString, e, z]
  | @more a s t n z p ih =>
    have e := s.memRead_with_run (.printing form a) a
    have one : (s.atString form a).stringRead =
        some (((s.memRead a).2.consoleWriteAll (form.bytes (s.memRead a).1)).atString form (a + 1)) := by
      simp only [State.stringRead, State.atString, e, if_neg z]
      rfl
    rw [State.stringReads, one]
    exact ih

/-- A blocking routine completes with the next byte, or blocks and changes nothing else. -/
theorem State.awaitByte_cases (s : State) (w : Waiting) :
    (∃ b rest, s.input = b :: rest ∧ s.awaitByte w = ({ s with input := rest } : State).finishRead w b) ∨
      (s.input = [] ∧ s.awaitByte w = { s with run := .blocked w }) := by
  unfold State.awaitByte
  obtain ⟨b, rest, h, e⟩ | ⟨h, e⟩ := s.consoleRead_cases <;> rw [e]
  · exact .inl ⟨b, rest, h, rfl⟩
  · exact .inr ⟨h, rfl⟩

/-- A blocked routine completes with the next byte and the core runs again, or goes on waiting. -/
theorem State.resumeRead_cases (s : State) (w : Waiting) :
    (∃ b rest, s.input = b :: rest ∧
        s.resumeRead w = { ({ s with input := rest } : State).finishRead w b with run := .running }) ∨
      (s.input = [] ∧ s.resumeRead w = s) := by
  unfold State.resumeRead
  obtain ⟨b, rest, h, e⟩ | ⟨h, e⟩ := s.consoleRead_cases <;> rw [e]
  · exact .inl ⟨b, rest, h, rfl⟩
  · exact .inr ⟨h, rfl⟩

end Sys2Proof.Machine
end

