-- ==== Sys2Proof/Laws/Step.lean ====
section
/-! SUPPORT. What one step can do, said once. -/

namespace Sys2Proof.Machine

/-- What the dispatcher does with a vector, routine by routine. -/
theorem execTrap_cases (v : Byte) (s : State) :
    (v = 0x20#8 ∧ execTrap v s = .next (trapGetc s)) ∨ (v = 0x21#8 ∧ execTrap v s = .next (trapOut s)) ∨
      (v = 0x22#8 ∧ execTrap v s = .next (trapPuts s)) ∨ (v = 0x23#8 ∧ execTrap v s = .next (trapIn s)) ∨
      (v = 0x24#8 ∧ execTrap v s = .next (trapPutsp s)) ∨ (v = 0x25#8 ∧ execTrap v s = .next (trapHalt s)) ∨
      ((v ≠ 0x20#8 ∧ v ≠ 0x21#8 ∧ v ≠ 0x22#8 ∧ v ≠ 0x23#8 ∧ v ≠ 0x24#8 ∧ v ≠ 0x25#8) ∧
        execTrap v s = .next s) := by
  by_cases h0 : v = 0x20#8
  · subst h0; exact .inl ⟨rfl, rfl⟩
  by_cases h1 : v = 0x21#8
  · subst h1; exact .inr (.inl ⟨rfl, rfl⟩)
  by_cases h2 : v = 0x22#8
  · subst h2; exact .inr (.inr (.inl ⟨rfl, rfl⟩))
  by_cases h3 : v = 0x23#8
  · subst h3; exact .inr (.inr (.inr (.inl ⟨rfl, rfl⟩)))
  by_cases h4 : v = 0x24#8
  · subst h4; exact .inr (.inr (.inr (.inr (.inl ⟨rfl, rfl⟩))))
  by_cases h5 : v = 0x25#8
  · subst h5; exact .inr (.inr (.inr (.inr (.inr (.inl ⟨rfl, rfl⟩)))))
  exact .inr (.inr (.inr (.inr (.inr (.inr
    ⟨⟨h0, h1, h2, h3, h4, h5⟩, by simp [execTrap, trapRoutine, h0, h1, h2, h3, h4, h5]⟩)))))

/-- A step runs the fetched instruction, or goes on with a blocked read or an endless string; an ended run takes none. -/
theorem step_cases {s t : State} (h : step s = .next t) :
    (s.run = .running ∧ exec (decode s.fetch.ir) s.fetch = .next t) ∨
      (∃ w, s.run = .blocked w ∧ t = s.resumeRead w) ∨
      (∃ form a, s.run = .printing form a ∧ t = s.resumePrint form a) := by
  unfold step at h
  split at h
  · exact .inl ⟨by assumption, h⟩
  · cases h; exact .inr (.inl ⟨_, by assumption, rfl⟩)
  · cases h; exact .inr (.inr ⟨_, _, by assumption, rfl⟩)
  · cases h
  · cases h
  · cases h

/-- A string routine is begun by a running core whose next instruction calls one. -/
theorem State.enterString_cases {s t : State} (h : s.enterString = some t) :
    s.run = .running ∧ ∃ form, stringOf (decode s.fetch.ir) = some form ∧ t = s.fetch.atString form (s.fetch.reg argReg) := by
  unfold State.enterString at h
  split at h
  · obtain ⟨form, hf, e⟩ := Option.map_eq_some_iff.mp h
    exact ⟨by assumption, form, hf, e.symm⟩
  · cases h

/-- One turn of the loop ends the routine at a zero word, or writes the word's bytes and goes on. -/
theorem State.stringRead_cases {s t : State} (h : s.stringRead = some t) :
    ∃ form a, s.run = .printing form a ∧
      (((s.memRead a).1 = 0x0000#16 ∧ t = { (s.memRead a).2 with run := .running }) ∨
        ((s.memRead a).1 ≠ 0x0000#16 ∧
          t = ((s.memRead a).2.consoleWriteAll (form.bytes (s.memRead a).1)).atString form (a + 1))) := by
  unfold State.stringRead at h
  split at h
  · refine ⟨_, _, by assumption, ?_⟩
    split at h
    · exact .inl ⟨by assumption, (Option.some.inj h).symm⟩
    · exact .inr ⟨by assumption, (Option.some.inj h).symm⟩
  all_goals cases h

/-- The boot sequence starts with the memory the images leave and every other field at its reset value. -/
theorem boot_started {gprs : Vector Word 8} {cond : BitVec 3} {memInit : Memory} {images : List ImageFile} {s : State}
    (h : boot gprs cond memInit images = .started s) :
    images ≠ [] ∧ ∃ m, loadImages images memInit = .ok m ∧ s = State.resetWith gprs cond m := by
  unfold boot at h
  split at h
  · cases h
  · split at h
    · cases h; exact ⟨by simp, _, by assumption, rfl⟩
    · cases h

end Sys2Proof.Machine
end

