-- ==== Sys2Proof/Tests/Slice0.lean ====
section
/-! SUPPORT. Tests, each on one word or one step, and the witnesses of the obligations. The expected results are those of
spec/95_test_vectors.md (vector numbers V, worked examples W) and of the rules' own examples, never the model's answers. -/

namespace Sys2Proof.Tests

open Sys2Proof Sys2Proof.Machine

/-! ### Helpers -/

/-- A running machine with these registers, flag and cells. -/
def machine (pc : Word) (regs : List (Reg × Word)) (cond : BitVec 3) (cells : List (Word × Word)) : State :=
  regs.foldl (fun s p => s.setReg p.1 p.2)
    { State.reset with pc := pc, cond := cond, mem := Memory.ofCells cells }

/-- The same machine with console input, and the answers of the next polls. -/
def fed (s : State) (bytes : List Byte) (draws : List Bool) : State := { s with input := bytes, readyDraws := draws }

/-- One step is taken, and the state after it passes the test. -/
def after (s : State) (p : State → Bool) : Bool :=
  match step s with
  | .next t => p t
  | .fault _ => false
  | .refused _ => false

/-! ### Decoding: words written out field by field from spec/30_encoding.md -/

theorem test_decode_br : decode 0b0000_010_111111101#16 = .br 0b010 (-3) := by decide
theorem test_decode_addReg : decode 0b0001_011_001_0_00_010#16 = .addReg 3 1 2 := by decide
theorem test_decode_addImm : decode 0b0001_000_001_1_00101#16 = .addImm 0 1 5 := by decide
theorem test_decode_ld : decode 0b0010_010_000000101#16 = .ld 2 5 := by decide
theorem test_decode_st : decode 0b0011_010_000000011#16 = .st 2 3 := by decide
theorem test_decode_jsr : decode 0b0100_1_10000000000#16 = .jsr (-1024) := by decide
theorem test_decode_jsrr : decode 0b0100_0_00_011_000000#16 = .jsrr 3 := by decide
theorem test_decode_andReg : decode 0b0101_000_001_0_00_010#16 = .andReg 0 1 2 := by decide
theorem test_decode_andImm : decode 0b0101_000_001_1_10000#16 = .andImm 0 1 (-16) := by decide
theorem test_decode_ldr : decode 0b0110_100_001_111110#16 = .ldr 4 1 (-2) := by decide
theorem test_decode_str : decode 0b0111_000_110_011111#16 = .str 0 6 31 := by decide
theorem test_decode_rti : decode 0b1000_000000000000#16 = .rti := by decide
theorem test_decode_not : decode 0b1001_110_101_111111#16 = .not 6 5 := by decide
theorem test_decode_ldi : decode 0b1010_011_000000010#16 = .ldi 3 2 := by decide
theorem test_decode_sti : decode 0b1011_001_010_000001#16 = .sti 1 2 1 := by decide
theorem test_decode_jmp : decode 0b1100_000_111_000000#16 = .jmp 7 := by decide
theorem test_decode_res : decode 0b1101_111111111111#16 = .res := by decide
theorem test_decode_lea : decode 0b1110_101_111111000#16 = .lea 5 (-8) := by decide
theorem test_decode_trap : decode 0b1111_0000_00100101#16 = .trap 0x25 := by decide

/-- The host's question, on a word and on a number that is no word. -/
theorem test_decodeTableWord :
    decodeTableWord 16 0x1642 = some (.addReg 3 1 2) ∧ decodeTableWord 16 0x10000 = none := by decide

/-- V23, V24, V40, V49, V100: words that differ in ignored bits. -/
theorem test_decode_ignored_bits :
    decode 0x165A#16 = decode 0x1642#16 ∧ decode 0x9640#16 = decode 0x967F#16 ∧
      decode 0xCEBF#16 = decode 0xC080#16 ∧ decode 0x46FF#16 = decode 0x40C0#16 ∧
      decode 0xFF25#16 = decode 0xF025#16 := by decide

/-! ### Well-formedness: every instruction passes; `standardWord` refuses a word for each row with ignored bits -/

theorem test_wellFormed (i : Instr) : i.wellFormed = true := by cases i <;> rfl
theorem test_standard_add : standardWord 0x165A#16 = false ∧ standardWord 0x1642#16 = true := by decide
theorem test_standard_and : standardWord 0x5658#16 = false ∧ standardWord 0x5642#16 = true := by decide
theorem test_standard_not : standardWord 0x9640#16 = false ∧ standardWord 0x967F#16 = true := by decide
theorem test_standard_jmp : standardWord 0xC280#16 = false ∧ standardWord 0xC081#16 = false := by decide
theorem test_standard_jsrr : standardWord 0x42C0#16 = false ∧ standardWord 0x40C1#16 = false := by decide
theorem test_standard_trap : standardWord 0xFF25#16 = false ∧ standardWord 0xF025#16 = true := by decide
theorem test_standard_res : standardWord 0xDFFF#16 = false ∧ standardWord 0xD000#16 = true := by decide
theorem test_standard_rti : standardWord 0x8001#16 = false ∧ standardWord 0x8000#16 = true := by decide

/-! ### Extension and flags (W1, W2) -/

theorem test_sext :
    sext 0x10#5 = 0xFFF0#16 ∧ sext 0x0F#5 = 0x000F#16 ∧ sext 0x20#6 = 0xFFE0#16 ∧ sext 0x1F#6 = 0x001F#16 ∧
      sext 0x100#9 = 0xFF00#16 ∧ sext 0x0FF#9 = 0x00FF#16 ∧ sext 0x400#11 = 0xFC00#16 ∧
      sext 0x3FF#11 = 0x03FF#16 := by decide
theorem test_flagOf :
    flagOf 0x0000#16 = 0b010#3 ∧ flagOf 0x0001#16 = 0b001#3 ∧ flagOf 0x7FFF#16 = 0b001#3 ∧
      flagOf 0x8000#16 = 0b100#3 ∧ flagOf 0xFFFF#16 = 0b100#3 := by decide

/-! ### Operate instructions -/

/-- V1. -/
theorem test_addReg_overflow_wraps :
    after (machine 0x3000 [(1, 0x7FFF), (2, 0x0001)] flagZ [(0x3000, 0x1642)])
      (fun t => t.reg 3 == 0x8000#16 && t.cond == flagN && t.pc == 0x3001#16) = true := by decide
/-- V22. -/
theorem test_addReg_same_register :
    after (machine 0x3000 [(1, 0x4001)] flagZ [(0x3000, 0x1241)])
      (fun t => t.reg 1 == 0x8002#16 && t.cond == flagN) = true := by decide
/-- V7. -/
theorem test_addImm_most_negative :
    after (machine 0x3000 [(1, 0x0005)] flagZ [(0x3000, 0x1670)])
      (fun t => t.reg 3 == 0xFFF5#16 && t.cond == flagN) = true := by decide
/-- V10. -/
theorem test_addImm_zero :
    after (machine 0x3000 [(1, 0x0010)] flagN [(0x3000, 0x1670)])
      (fun t => t.reg 3 == 0x0000#16 && t.cond == flagZ) = true := by decide
/-- V12. -/
theorem test_andReg :
    after (machine 0x3000 [(1, 0x00F0), (2, 0x0F0F), (3, 0x1111)] flagN [(0x3000, 0x5642)])
      (fun t => t.reg 3 == 0x0000#16 && t.cond == flagZ) = true := by decide
/-- V15. -/
theorem test_andImm :
    after (machine 0x3000 [(1, 0x8ABC)] flagZ [(0x3000, 0x5670)])
      (fun t => t.reg 3 == 0x8AB0#16 && t.cond == flagN) = true := by decide
/-- V25. -/
theorem test_not_in_place :
    after (machine 0x3000 [(2, 0x5555)] flagZ [(0x3000, 0x94BF)])
      (fun t => t.reg 2 == 0xAAAA#16 && t.cond == flagN) = true := by decide

/-! ### Control transfer -/

/-- V30. -/
theorem test_br_taken :
    after (machine 0x3005 [] flagZ [(0x3005, 0x05FD)]) (fun t => t.pc == 0x3003#16 && t.cond == flagZ) = true := by
  decide
/-- V31. -/
theorem test_br_not_taken :
    after (machine 0x3005 [] flagP [(0x3005, 0x05FD)]) (fun t => t.pc == 0x3006#16) = true := by decide
/-- V39. -/
theorem test_jmp :
    after (machine 0x3000 [(2, 0x3050)] flagZ [(0x3000, 0xC080)])
      (fun t => t.pc == 0x3050#16 && t.reg 7 == 0x0000#16) = true := by decide
/-- V45: the increment wraps. -/
theorem test_jsr_wraps :
    after (machine 0xFFFF [(7, 0x1111)] flagN [(0xFFFF, 0x4801)])
      (fun t => t.reg 7 == 0x0000#16 && t.pc == 0x0001#16 && t.cond == flagN) = true := by decide
/-- V44. -/
theorem test_jsr_most_negative :
    after (machine 0x3000 [] flagZ [(0x3000, 0x4C00)])
      (fun t => t.reg 7 == 0x3001#16 && t.pc == 0x2C01#16) = true := by decide
/-- V47. -/
theorem test_jsrr :
    after (machine 0x3000 [(3, 0x4000)] flagZ [(0x3000, 0x40C0)])
      (fun t => t.reg 7 == 0x3001#16 && t.pc == 0x4000#16) = true := by decide
/-- V48. -/
theorem test_jsrr_r7 :
    after (machine 0x3000 [(7, 0x5000)] flagZ [(0x3000, 0x41C0)])
      (fun t => t.reg 7 == 0x3001#16 && t.pc == 0x3001#16) = true := by decide

/-! ### Loads and stores -/

/-- V60. -/
theorem test_ld :
    after (machine 0x3000 [] flagZ [(0x3000, 0x2405), (0x3006, 0x8001)])
      (fun t => t.reg 2 == 0x8001#16 && t.cond == flagN) = true := by decide
/-- W4. -/
theorem test_ldi :
    after (machine 0x3000 [] flagZ [(0x3000, 0xA602), (0x3003, 0x4000), (0x4000, 0x1234)])
      (fun t => t.reg 3 == 0x1234#16 && t.cond == flagP && t.pc == 0x3001#16) = true := by decide
/-- V81: LDI through a pointer to KBSR polls. -/
theorem test_ldi_polls :
    after (fed (machine 0x3000 [] flagZ [(0x3000, 0xA202), (0x3003, 0xFE00)]) [0x41, 0x42] [true])
      (fun t => t.reg 1 == 0x8000#16 && t.cond == flagN && t.mem.read 0xFE00 == 0x8000#16 &&
        t.mem.read 0xFE02 == 0x0041#16 && t.input == [0x42]) = true := by decide
/-- V64: the address wraps. -/
theorem test_ldr_wraps :
    after (machine 0x3000 [(1, 0xFFFF)] flagZ [(0x3000, 0x6041), (0x0000, 0x0007)])
      (fun t => t.reg 0 == 0x0007#16 && t.cond == flagP) = true := by decide
/-- V66. -/
theorem test_ldr_through_itself :
    after (machine 0x3000 [(1, 0x4000)] flagZ [(0x3000, 0x6240), (0x4000, 0x4321)])
      (fun t => t.reg 1 == 0x4321#16 && t.cond == flagP) = true := by decide
/-- V67. -/
theorem test_lea :
    after (machine 0x3010 [] flagZ [(0x3010, 0xEBF8)])
      (fun t => t.reg 5 == 0x3009#16 && t.cond == flagP) = true := by decide
/-- V68. -/
theorem test_lea_zero :
    after (machine 0x0000 [(0, 0x1111)] flagN [(0x0000, 0xE1FF)])
      (fun t => t.reg 0 == 0x0000#16 && t.cond == flagZ) = true := by decide
/-- V71. -/
theorem test_st :
    after (machine 0x3000 [(2, 0xBEEF)] flagP [(0x3000, 0x3403)])
      (fun t => t.mem.read 0x3004 == 0xBEEF#16 && t.cond == flagP) = true := by decide
/-- V72. -/
theorem test_sti :
    after (machine 0x3000 [(1, 0x0042), (2, 0x4000)] flagZ [(0x3000, 0xB281), (0x4001, 0x5000)])
      (fun t => t.mem.read 0x5000 == 0x0042#16 && t.mem.read 0x4001 == 0x5000#16) = true := by decide
/-- V73: the pointer is overwritten. -/
theorem test_sti_over_its_pointer :
    after (machine 0x3000 [(1, 0x0042), (2, 0x4000)] flagZ [(0x3000, 0xB281), (0x4001, 0x4001)])
      (fun t => t.mem.read 0x4001 == 0x0042#16) = true := by decide
/-- V74. -/
theorem test_str :
    after (machine 0x3000 [(6, 0x4000), (0, 0x0007)] flagZ [(0x3000, 0x719F)])
      (fun t => t.mem.read 0x401F == 0x0007#16) = true := by decide
/-- V75. -/
theorem test_str_negative :
    after (machine 0x3000 [(6, 0x4000), (0, 0x0001)] flagZ [(0x3000, 0x71A0)])
      (fun t => t.mem.read 0x3FE0 == 0x0001#16) = true := by decide

/-! ### The keyboard cells -/

/-- V80. -/
theorem test_kbsr_none :
    (fed (machine 0x3000 [] flagZ [(0xFE00, 0x8000), (0xFE02, 0x0055)]) [0x41] [false]).memRead kbsrAddr =
      (0x0000#16, fed (machine 0x3000 [] flagZ [(0xFE02, 0x0055)]) [0x41] []) := by decide
/-- V82, V83: of two polls in a row the second one counts. -/
theorem test_kbsr_twice :
    (((fed State.reset [0x41, 0x42] [true, false]).memRead kbsrAddr).2.memRead kbsrAddr).2.mem =
        [(0xFE02, 0x0041#16)] ∧
      (((fed State.reset [0x41, 0x42] [true, true]).memRead kbsrAddr).2.memRead kbsrAddr).2.mem =
        [(0xFE00, 0x8000#16), (0xFE02, 0x0042#16)] := by decide
/-- V84. -/
theorem test_kbdr_does_not_poll :
    (fed (machine 0x3000 [] flagZ [(0xFE02, 0x0055)]) [0x41] [true]).memRead kbdrAddr =
      (0x0055#16, fed (machine 0x3000 [] flagZ [(0xFE02, 0x0055)]) [0x41] [true]) := by decide
/-- V86: a fetch at KBSR. -/
theorem test_fetch_at_kbsr :
    after (fed (machine 0xFE00 [] flagZ []) [0x20] [true])
      (fun t => t.run == .fatal ⟨.rti, 0x8000, 0xFE01⟩ && t.mode == .original && t.mem.read 0xFE02 == 0x0020#16) =
      true := by decide

/-! ### TRAP, RES and RTI -/

/-- V90. -/
theorem test_getc :
    after (fed (machine 0x3000 [(0, 0x1234)] flagP [(0x3000, 0xF020)]) [0x61] [])
      (fun t => t.reg 0 == 0x0061#16 && t.cond == flagP && t.output == [] && t.run == .running) = true := by decide
/-- R28: no byte, so blocked, R0 not written. -/
theorem test_getc_blocks :
    after (machine 0x3000 [(0, 0x1234)] flagP [(0x3000, 0xF020)])
      (fun t => t.reg 0 == 0x1234#16 && t.run == .blocked .getc && t.pc == 0x3001#16) = true := by decide
/-- V92, V103. -/
theorem test_out :
    after (machine 0x3000 [(0, 0x1241), (7, 0xABCD)] flagN [(0x3000, 0xF021)])
      (fun t => t.output == [0x41] && t.reg 7 == 0xABCD#16 && t.cond == flagN) = true := by decide
/-- V93. -/
theorem test_puts_zero_low_byte :
    after (machine 0x3000 [(0, 0x4000)] flagZ [(0x3000, 0xF022), (0x4000, 0x0100), (0x4001, 0x0041)])
      (fun t => t.output == [0x00, 0x41] && t.reg 0 == 0x4000#16) = true := by decide
/-- V95. -/
theorem test_puts_wraps :
    after (machine 0x3000 [(0, 0xFFFF)] flagZ [(0x3000, 0xF022), (0xFFFF, 0x0041)])
      (fun t => t.output == [0x41] && t.run == .running) = true := by decide
/-- V96: the echo is the last byte written. -/
theorem test_in :
    after (fed (machine 0x3000 [] flagZ [(0x3000, 0xF023)]) [0x37] [])
      (fun t => t.reg 0 == 0x0037#16 && t.cond == flagZ && t.input == []) = true := by decide
/-- V97. -/
theorem test_putsp :
    after (machine 0x3000 [(0, 0x4000)] flagZ [(0x3000, 0xF024), (0x4000, 0x6548), (0x4001, 0x006C)])
      (fun t => t.output == [0x48, 0x65, 0x6C]) = true := by decide
/-- V98. -/
theorem test_putsp_zero_low_byte :
    after (machine 0x3000 [(0, 0x4000)] flagZ [(0x3000, 0xF024), (0x4000, 0x4100)])
      (fun t => t.output == [0x00, 0x41]) = true := by decide
/-- V99. -/
theorem test_halt :
    after (machine 0x3006 [] flagZ [(0x3006, 0xF025)])
      (fun t => t.run == .halted && t.pc == 0x3007#16 && t.mode == .original) = true := by decide
/-- V101. -/
theorem test_unknown_vector :
    after (machine 0x3000 [(7, 0x1111)] flagZ [(0x3000, 0xF026)])
      (fun t => t.pc == 0x3001#16 && t.reg 7 == 0x1111#16 && t.run == .running && t.output == []) = true := by decide
/-- V104. -/
theorem test_rti :
    after (machine 0x3000 [] flagZ [(0x3000, 0x8000)])
      (fun t => t.run == .fatal ⟨.rti, 0x8000, 0x3001⟩ && t.mode == .original) = true := by decide
/-- V105. -/
theorem test_res :
    after (machine 0x3000 [] flagZ [(0x3000, 0xDFFF)])
      (fun t => t.run == .fatal ⟨.res, 0xDFFF, 0x3001⟩ && t.mode == .original) = true := by decide

/-! ### The host's placement of a word, and the loader -/

/-- V1's word as the first instruction after reset, and placed at KBSR's own address. -/
theorem test_withFetchWord :
    after (State.reset.withFetchWord 16 0x1065) (fun t => t.reg 0 == 0x0005#16 && t.pc == 0x3001#16) = true ∧
      after (State.withFetchWord { State.reset with pc := 0xFE00 } 16 0x1065) (fun t => t.reg 0 == 0x0005#16) =
        true := by decide
/-- W5, V113, V114. -/
theorem test_loader :
    loadBytes [0x30, 0x00, 0x12, 0x34, 0x56, 0x78] [] = .ok [(0x3000, 0x1234#16), (0x3001, 0x5678#16)] ∧
      loadBytes [0x30, 0x00, 0x12, 0x34, 0x56] [] = .ok [(0x3000, 0x1234#16)] ∧
      loadBytes [0xFF, 0xFF, 0xAB, 0xCD, 0x12, 0x34] [] = .ok [(0x0000, 0x1234#16), (0xFFFF, 0xABCD#16)] :=
  ⟨rfl, rfl, rfl⟩
/-- V115. -/
theorem test_loader_later_image_wins :
    loadImages [⟨"1", some [0x30, 0x00, 0x11, 0x11, 0x22, 0x22]⟩, ⟨"2", some [0x30, 0x01, 0x33, 0x33]⟩] [] =
      .ok [(0x3000, 0x1111#16), (0x3001, 0x3333#16)] := rfl

/-! ### A memory with no zero word, for the witnesses about strings that do not end -/

/-- `n` cells from `lo` on, each holding 1. -/
def onesFrom : Nat → Nat → Memory
  | _, 0 => []
  | lo, n + 1 => (lo, 0x0001#16) :: onesFrom (lo + 1) n

theorem onesFrom_cell (n lo a : Nat) (h : lo ≤ a) (h1 : a < lo + n) : (onesFrom lo n).cell a = 0x0001#16 := by
  induction n generalizing lo with
  | zero => omega
  | succ n ih =>
    rw [onesFrom, Memory.cell]
    split
    · rfl
    · exact ih (lo + 1) (by omega) (by omega)

theorem onesFrom_wf (n lo : Nat) (h : lo + n ≤ 65536) : Memory.wfFrom lo (onesFrom lo n) = true := by
  induction n generalizing lo with
  | zero => rfl
  | succ n ih =>
    rw [onesFrom, Memory.wfFrom_cons]
    exact ⟨le_rfl, by omega, by decide, ih (lo + 1) (by omega)⟩

/-- There is a canonical memory that holds no zero word at all. -/
theorem nonzero_memory : ∃ m : Memory, m.wf = true ∧ ∀ a, m.read a ≠ 0x0000#16 := by
  obtain ⟨n, hn⟩ : ∃ n, n = 65536 := ⟨_, rfl⟩
  refine ⟨onesFrom 0 n, onesFrom_wf n 0 (by omega), fun a => ?_⟩
  rw [Memory.read, onesFrom_cell n 0 a.toNat (Nat.zero_le _) (by omega)]
  decide

/-- A machine at 0x3000 with memory `m`, R0 at KBSR, one byte to poll, and these poll answers. -/
def atKbsr (m : Memory) (draws : List Bool) (r : RunState) : State :=
  { machine 0x3000 [(0, 0xFE00)] flagZ [] with mem := m, input := [0x01#8], readyDraws := draws, run := r }

/-- A string of `n` words that are neither at KBSR nor zero, and what follows them. -/
theorem before_nonzero (form : StringForm) (n : Nat) (a : Word) (s : State)
    (h : ∀ k, k < n → a + BitVec.ofNat 16 k ≠ kbsrAddr ∧ s.mem.read (a + BitVec.ofNat 16 k) ≠ 0x0000#16) :
    ∃ bs, ∀ k t, PrintsTo form (a + BitVec.ofNat 16 n) (s.consoleWriteAll bs) k t → PrintsTo form a s (k + n) t := by
  induction n generalizing a s with
  | zero => exact ⟨[], fun k t p => by simpa [State.consoleWriteAll] using p⟩
  | succ n ih =>
    have h0 := h 0 (by omega)
    rw [BitVec.add_zero] at h0
    have e : s.memRead a = (s.mem.read a, s) := by simp [State.memRead, h0.1]
    obtain ⟨bs, q⟩ := ih (a + 1) (s.consoleWriteAll (form.bytes (s.mem.read a)))
      (fun k hk => by rw [succ_add_ofNat]; exact h (k + 1) (by omega))
    refine ⟨form.bytes (s.mem.read a) ++ bs, fun k t p => ?_⟩
    refine .more (by rw [e]; exact h0.2) ?_
    rw [e]
    refine q k t ?_
    rw [succ_add_ofNat]
    simpa [State.consoleWriteAll, List.append_assoc] using p

/-- A whole pass over a memory with no zero word, from KBSR on, the poll finding the byte, and what follows it. -/
theorem endless_pass (form : StringForm) (draws : List Bool) (s : State) (wf : s.mem.wf = true)
    (hm : ∀ a, s.mem.read a ≠ 0x0000#16) (hi : s.input = [0x01#8]) (hd : s.readyDraws = true :: draws) :
    ∃ s1, s1.mem.wf = true ∧ s1.readyDraws = draws ∧ s1.input = [] ∧
      ∀ k t, PrintsTo form kbsrAddr s1 k t → PrintsTo form kbsrAddr s (k + 65536) t := by
  have e : s.memRead kbsrAddr = (0x8000#16, ({ s with
      readyDraws := draws
      input := []
      mem := (s.mem.write kbsrAddr 0x8000#16).write kbdrAddr 0x0001#16 } : State)) := by
    simp only [State.memRead, if_true, State.refreshKeyboard, State.consolePoll, State.drawReady, hd, hi, State.memWrite]
    rw [Memory.read_write_of_ne (by decide), Memory.read_write_self wf]
    rfl
  have nz : ∀ a, a ≠ kbsrAddr → ((s.mem.write kbsrAddr 0x8000#16).write kbdrAddr 0x0001#16).read a ≠ 0x0000#16 := by
    intro a ha
    by_cases hb : a = kbdrAddr
    · rw [hb, Memory.read_write_self (Memory.write_wf wf _ _)]
      decide
    · rw [Memory.read_write_of_ne hb, Memory.read_write_of_ne ha]
      exact hm a
  obtain ⟨n, hn⟩ : ∃ n, n = 65535 := ⟨_, rfl⟩
  obtain ⟨bs, q⟩ := before_nonzero form n (kbsrAddr + 1)
    ((s.memRead kbsrAddr).2.consoleWriteAll (form.bytes (s.memRead kbsrAddr).1)) (fun k hk => by
      have ne : kbsrAddr + 1 + BitVec.ofNat 16 k ≠ kbsrAddr := by
        rw [succ_add_ofNat]
        intro c
        have t : BitVec.ofNat 16 (k + 1) = 0x0000#16 := by
          have u := congrArg (fun x => x - kbsrAddr) c
          simpa [BitVec.add_comm] using u
        have v := congrArg BitVec.toNat t
        rw [BitVec.toNat_ofNat, Nat.mod_eq_of_lt (by omega)] at v
        cases v
      exact ⟨ne, by rw [e]; exact nz _ ne⟩)
  rw [succ_add_ofNat, show kbsrAddr + BitVec.ofNat 16 (n + 1) = kbsrAddr by
    rw [hn, show BitVec.ofNat 16 (65535 + 1) = 0x0000#16 from BitVec.eq_of_toNat_eq (by rw [BitVec.toNat_ofNat]; rfl)]
    exact BitVec.add_zero kbsrAddr] at q
  refine ⟨((s.memRead kbsrAddr).2.consoleWriteAll (form.bytes (s.memRead kbsrAddr).1)).consoleWriteAll bs,
    by rw [e]; exact Memory.write_wf (Memory.write_wf wf _ _) _ _, by rw [e]; rfl, by rw [e]; rfl, fun k t p => ?_⟩
  have whole := PrintsTo.more (s := s) (form := form) (by rw [e]; exact of_decide_eq_true rfl) (q k t p)
  rw [hn] at whole
  exact whole

/-- A string of 65537 reads: the second poll of KBSR answers that no byte is ready. -/
theorem long_string (form : StringForm) (m : Memory) (r : RunState) (wf : m.wf = true) (hm : ∀ a, m.read a ≠ 0x0000#16) :
    ∃ t, PrintsTo form kbsrAddr (atKbsr m [true, false] r) (1 + 65536) t := by
  obtain ⟨s1, wf1, hd, hi, q⟩ := endless_pass form [false] (atKbsr m [true, false] r) wf hm rfl rfl
  refine ⟨_, q _ _ (.stop ?_)⟩
  simp only [State.memRead, if_true, State.refreshKeyboard, State.consolePoll, State.drawReady, hd, hi, State.memWrite]
  exact Memory.read_write_self wf1 _ _

/-! ### Witnesses: a concrete state and operands that meet the hypotheses of each obligation that has any -/

theorem witness_EncodeOfDecodeGivesAStandardWordBack : standardWord 0x967F#16 = true := by decide

theorem witness_IgnoredBitsDoNotChangeTheInstruction :
    ∃ r ∈ opcodeTable, r.covers 0x1642#16 = true ∧ 0x0018#16 &&& ~~~ r.ignored = 0#16 :=
  ⟨⟨"ADD", 0xF020, 0x1000, 0x0018, 0x0000⟩, by decide, by decide, by decide⟩

theorem witness_EveryWordIsOfExactlyItsTableRow :
    opcodeTable[0]? = some ⟨"BR", 0xF000, 0x0000, 0x0000, 0x0000⟩ ∧
      opcodeTable[18]? = some ⟨"TRAP", 0xF000, 0xF000, 0x0F00, 0x0000⟩ := ⟨rfl, rfl⟩

theorem witness_FlagsFollowTheValueWrittenToTheDestination :
    (0x8000#16).getLsbD 15 = true ∧ (0xFFFF#16).getLsbD 15 = true ∧
      (0x0001#16 ≠ 0x0000#16 ∧ (0x0001#16).getLsbD 15 = false) ∧
      (0x7FFF#16 ≠ 0x0000#16 ∧ (0x7FFF#16).getLsbD 15 = false) ∧
      Instr.flagDest (.addReg 3 1 2) = some 3 ∧ Instr.flagDest (.lea 7 0) = some 7 := by decide

theorem witness_BranchMovesPcWhenItsMaskMeetsCond :
    (machine 0x3000 [] flagN []).cond = flagN ∧ State.reset.cond = flagZ ∧ (machine 0x3000 [] flagP []).cond = flagP :=
  ⟨rfl, rfl, rfl⟩

theorem witness_ReadOfAnyOtherAddressChangesNothing :
    0xFDFF#16 ≠ kbsrAddr ∧ 0xFE01#16 ≠ kbsrAddr ∧ kbdrAddr ≠ kbsrAddr := by decide

theorem witness_ReadOfKeyboardStatusPollsTheConsole :
    (State.reset.mem.wf = true) ∧
      (fed State.reset [0x41] [true]).readyDraws.headD (Config.pollReady 0) = true ∧
      (fed State.reset [0x41] [true]).input = 0x41 :: [] ∧
      (fed State.reset [0x41] [false]).readyDraws.headD (Config.pollReady 0) = false ∧
      (fed State.reset [] [true]).input = [] ∧ State.reset.readyDraws = [] ∧
      (fed State.reset [] [true]).readyDraws ≠ [] := ⟨rfl, rfl, rfl, rfl, rfl, rfl, by decide⟩

theorem witness_WriteIsAPlainStoreAndKeyboardStatusForgetsIt : State.reset.mem.wf = true := rfl

theorem witness_CanonicalMemoriesThatReadAlikeAreEqual :
    Memory.wf [(0, 0x0001#16), (65535, 0x0002#16)] = true ∧ Memory.wf (Memory.ofCells [(0xFFFF, 2), (0, 1)]) = true ∧
      ∀ a, Memory.read [(0, 0x0001#16), (65535, 0x0002#16)] a = (Memory.ofCells [(0xFFFF, 2), (0, 1)]).read a :=
  ⟨by decide, by decide, fun _ => rfl⟩

/-- LD and LDR, of a plain cell and of KBSR. -/
theorem witness_LoadGivesTheWordReadAtItsAddress :
    (∃ off, Instr.ld 2 5 = .ld 2 off ∧ 0x3006#16 = (machine 0x3001 [] flagZ []).pc + off.signExtend 16) ∧
      (∃ base off, Instr.ldr 2 1 (-1) = .ldr 2 base off ∧
        kbsrAddr = (machine 0x3001 [(1, 0xFE01)] flagZ []).reg base + off.signExtend 16) ∧
      0x3006#16 ≠ kbsrAddr :=
  ⟨⟨5, rfl, by decide⟩, ⟨1, -1, rfl, by decide⟩, by decide⟩

theorem witness_LoadIndirectGivesTheWordPointedTo :
    (machine 0x3001 [] flagZ [(0x3003, 0x4000)]).pc + (2#9).signExtend 16 ≠ kbsrAddr ∧
      (machine 0x3001 [] flagZ [(0x3003, 0x4000)]).mem.read
        ((machine 0x3001 [] flagZ [(0x3003, 0x4000)]).pc + (2#9).signExtend 16) ≠ kbsrAddr := by decide

theorem witness_StoreWritesTheOneCellAtItsAddress : (machine 0x3001 [] flagZ [(0x3003, 0x4000)]).mem.wf = true := by
  decide

theorem witness_StoreIndirectWritesTheOneCellPointedTo :
    (machine 0x3001 [(2, 0x4000)] flagZ [(0x4001, 0x5000)]).mem.wf = true ∧
      (machine 0x3001 [(2, 0x4000)] flagZ [(0x4001, 0x5000)]).reg 2 + (1#6).signExtend 16 ≠ kbsrAddr := by decide

/-- V76's store, and the same through STR and STI. -/
theorem witness_StoredWordIsFetchedByTheNextStep :
    (∃ t, (machine 0x3001 [(0, 0xF025)] flagZ []).mem.wf = true ∧
      Instr.storeAddr (.st 0 0) (machine 0x3001 [(0, 0xF025)] flagZ []) = some 0x3001#16 ∧
      exec (.st 0 0) (machine 0x3001 [(0, 0xF025)] flagZ []) = .next t) ∧
    (∃ t, Instr.storeAddr (.str 0 1 (-1)) (machine 0x3001 [(1, 0x3002)] flagZ []) = some 0x3001#16 ∧
      exec (.str 0 1 (-1)) (machine 0x3001 [(1, 0x3002)] flagZ []) = .next t) ∧
    (∃ t, (machine 0x3001 [(1, 0x4000)] flagZ [(0x4000, 0x3001)]).run = .running ∧
      (machine 0x3001 [(1, 0x4000)] flagZ [(0x4000, 0x3001)]).pc ≠ kbsrAddr ∧
      Instr.storeAddr (.sti 0 1 0) (machine 0x3001 [(1, 0x4000)] flagZ [(0x4000, 0x3001)]) = some 0x3001#16 ∧
      exec (.sti 0 1 0) (machine 0x3001 [(1, 0x4000)] flagZ [(0x4000, 0x3001)]) = .next t) :=
  ⟨⟨_, by decide, by decide, rfl⟩, ⟨_, by decide, rfl⟩, ⟨_, rfl, by decide, by decide, rfl⟩⟩

theorem witness_TrapWithAnyVectorKeepsTheRestOfTheState :
    0x21#8 ≠ 0x20#8 ∧ 0x21#8 ≠ 0x23#8 ∧ 0x21#8 ≠ 0x22#8 ∧ 0x21#8 ≠ 0x24#8 := by decide

theorem witness_GetcAndInTakeTheNextInputByte : (fed State.reset [0x61, 0x62] []).input = 0x61 :: [0x62] := rfl

theorem witness_GetcAndInBlockWithoutInputAndWait :
    State.reset.input = [] ∧ ({ State.reset with run := .blocked .getc } : State).run = .blocked .getc := ⟨rfl, rfl⟩

/-- Both routines, begun without a byte, and blocked with two bytes to read. -/
theorem witness_WaitingForAByteDoesNotChangeWhatIsRead :
    ((∃ t, State.reset.run = .running ∧ State.reset.input = [] ∧ exec (.trap 0x20#8) State.reset = .next t) ∧
      ∃ t, exec (.trap 0x23#8) State.reset = .next t) ∧
    ({ fed State.reset [0x61, 0x62] [] with run := .blocked .getc } : State).input = 0x61 :: [0x62] ∧
    ({ fed State.reset [0x61, 0x62] [] with run := .blocked .inEcho } : State).run = .blocked .inEcho :=
  ⟨⟨⟨_, rfl, rfl, rfl⟩, ⟨_, rfl⟩⟩, rfl, rfl⟩

/-- An empty string, one of two reads, and one of 65537. -/
theorem witness_StringTrapsRunToTheFirstZeroWord :
    (State.reset.mem.wf = true ∧ ∃ t, PrintsTo .puts (State.reset.reg 0) State.reset 1 t) ∧
      (∃ t, PrintsTo .putsp ((machine 0x3001 [(0, 0x4000)] flagZ [(0x4000, 0x4100)]).reg 0)
        (machine 0x3001 [(0, 0x4000)] flagZ [(0x4000, 0x4100)]) 2 t) ∧
      ∃ s t, s.mem.wf = true ∧ PrintsTo .puts (s.reg 0) s (1 + 65536) t := by
  obtain ⟨m, wf, hm⟩ := nonzero_memory
  obtain ⟨t, p⟩ := long_string .puts m .running wf hm
  exact ⟨⟨rfl, _, .stop (by decide)⟩, ⟨_, .more (by decide) (.stop (by decide))⟩, atKbsr m [true, false] .running, t, wf, p⟩

/-- W6's string, of two words, and the empty one. -/
theorem witness_StringTrapsWriteTheBytesOfEachWord :
    ((∀ w ∈ [0x0048#16, 0x0049#16], w ≠ 0x0000#16) ∧
      (∀ (k : Nat) (w : Word), [0x0048#16, 0x0049#16][k]? = some w →
        (machine 0x3001 [(0, 0x4000)] flagZ [(0x4000, 0x0048), (0x4001, 0x0049)]).mem.read
          (0x4000#16 + BitVec.ofNat 16 k) = w) ∧
      (machine 0x3001 [(0, 0x4000)] flagZ [(0x4000, 0x0048), (0x4001, 0x0049)]).mem.read
          (0x4000#16 + BitVec.ofNat 16 2) = 0x0000#16 ∧
      ∀ k, k ≤ 2 → 0x4000#16 + BitVec.ofNat 16 k ≠ kbsrAddr) ∧
    State.reset.mem.read (State.reset.reg 0 + BitVec.ofNat 16 0) = 0x0000#16 := by
  refine ⟨⟨by simp, ?_, by decide, by decide⟩, by decide⟩
  intro k w h
  obtain _ | _ | k := k
  · obtain rfl : 0x0048#16 = w := Option.some.inj h
    decide
  · obtain rfl : 0x0049#16 = w := Option.some.inj h
    decide
  · cases h

/-- A plain zero word, first and last of the 65536, and a zero KBDR read before any read of KBSR. -/
theorem witness_StringEndsWithinOnePassWhenAZeroWordExists :
    (State.reset.mem.read (State.reset.reg 0 + BitVec.ofNat 16 0) = 0x0000#16 ∧
      State.reset.reg 0 + BitVec.ofNat 16 0 ≠ kbsrAddr ∧ State.reset.reg 0 + BitVec.ofNat 16 0 ≠ kbdrAddr) ∧
    (State.reset.mem.read (State.reset.reg 0 + BitVec.ofNat 16 65535) = 0x0000#16 ∧
      State.reset.reg 0 + BitVec.ofNat 16 65535 ≠ kbsrAddr ∧ State.reset.reg 0 + BitVec.ofNat 16 65535 ≠ kbdrAddr) ∧
    ((machine 0x3001 [(0, 0xFE01)] flagZ []).reg 0 + BitVec.ofNat 16 1 = kbdrAddr ∧
      (machine 0x3001 [(0, 0xFE01)] flagZ []).mem.read kbdrAddr = 0x0000#16 ∧
      ∀ i, i < 1 → (machine 0x3001 [(0, 0xFE01)] flagZ []).reg 0 + BitVec.ofNat 16 i ≠ kbsrAddr) := by decide

theorem witness_StringWithoutAZeroWordKeepsTheCoreInItsRoutine :
    ∃ s : State, s.mem.wf = true ∧ s.run = .printing .puts 0x4000 ∧ s.input = [] ∧ s.readyDraws = [] ∧
      ∀ z, z ≠ kbsrAddr → s.mem.read z ≠ 0x0000#16 := by
  obtain ⟨m, wf, hm⟩ := nonzero_memory
  exact ⟨{ State.reset with mem := m, run := .printing .puts 0x4000 }, wf, rfl, rfl, rfl, fun z _ => hm z⟩

/-- Each clause: W6's PUTS begun, a string of 65537 reads under way, and PUTS and OUT as the next instruction. -/
theorem witness_LongStringReturnsInTheStateItsLoopLeaves :
    (∃ u, (machine 0x3000 [(0, 0x4000)] flagZ [(0x3000, 0xF022), (0x4000, 0x0048)]).mem.wf = true ∧
      (machine 0x3000 [(0, 0x4000)] flagZ [(0x3000, 0xF022), (0x4000, 0x0048)]).enterString = some u) ∧
    (∃ s t, s.mem.wf = true ∧ s.run = .printing .puts kbsrAddr ∧ PrintsTo .puts kbsrAddr s (1 + 65536) t) ∧
    (State.reset.run = .running ∧
      decode ((machine 0x3000 [] flagZ [(0x3000, 0xF022)]).memRead 0x3000).1 = .trap 0x22#8 ∧
      decode ((machine 0x3000 [] flagZ [(0x3000, 0xF021)]).memRead 0x3000).1 = .trap 0x21#8) := by
  obtain ⟨m, wf, hm⟩ := nonzero_memory
  obtain ⟨t, p⟩ := long_string .puts m (.printing .puts kbsrAddr) wf hm
  exact ⟨⟨_, by decide, rfl⟩, ⟨_, t, wf, rfl, p⟩, rfl, by decide, by decide⟩

theorem witness_UnknownTrapVectorDoesNothing :
    0x00#8 < 0x20#8 ∧ 0x1F#8 < 0x20#8 ∧ 0x25#8 < 0x26#8 ∧ 0x25#8 < 0xFF#8 := by decide

theorem witness_StepFetchesIncrementsAndRunsTheDecodedInstruction :
    State.reset.run = .running ∧ State.reset.memRead State.reset.pc = (0x0000#16, State.reset) := ⟨rfl, rfl⟩

theorem witness_StepIsTakenExactlyWhileTheRunGoesOn :
    State.reset.run.live = true ∧ ({ State.reset with run := .halted } : State).run = .halted ∧
      ({ State.reset with run := .fatal ⟨.res, 0xD000, 0x3001⟩ } : State).run = .fatal ⟨.res, 0xD000, 0x3001⟩ ∧
      ({ State.reset with run := .aborted } : State).run = .aborted := ⟨rfl, rfl, rfl, rfl⟩

theorem witness_CondIsWrittenBySevenInstructionsAndReadByBranchAlone :
    Instr.flagDest (.trap 0x20) = none ∧ Instr.flagDest (.ldi 3 2) = some 3 ∧
      ∀ nzp off, Instr.trap 0x20 ≠ .br nzp off := ⟨rfl, rfl, fun _ _ h => Instr.noConfusion h⟩

theorem witness_PcIsMovedByControlTransferAlone :
    ∃ t, step (machine 0xFFFF [] flagZ [(0xFFFF, 0xF021)]) = .next t ∧
      (decode ((machine 0xFFFF [] flagZ [(0xFFFF, 0xF021)]).memRead 0xFFFF).1).movesPc = false :=
  ⟨_, rfl, by decide⟩

theorem witness_RegistersAreWrittenOnlyAsListed :
    Instr.regWritten (.addReg 3 1 2) ≠ some 2 ∧ Instr.regWritten (.jsr 0) ≠ some 6 ∧
      Instr.regWritten (.trap 0x21) ≠ some 0 ∧ Instr.regWritten (.trap 0x23) ≠ some 7 := by decide

theorem witness_MemoryIsWrittenByStoresAlone :
    Instr.storeAddr (.st 0 0) State.reset ≠ some 0x3001#16 ∧ Instr.storeAddr (.addReg 3 1 2) State.reset ≠ some 0x3000#16 ∧
      0x3001#16 ≠ kbsrAddr ∧ 0x3001#16 ≠ kbdrAddr := by decide

theorem witness_FetchedWordDoesNotOutliveItsStep : State.reset.run = .running := rfl

theorem witness_ConsoleBytesAreNeverTakenBackOrMadeUp : ∃ t, step State.reset = .next t := ⟨_, rfl⟩

/-- RES, RTI, HALT, GETC without input, and PUTS. -/
theorem witness_RunStateLeavesRunningOnlyAsListed :
    after (machine 0x3000 [] flagZ [(0x3000, 0xD000)]) (fun t => t.run == .fatal ⟨.res, 0xD000, 0x3001⟩) = true ∧
      after (machine 0x3000 [] flagZ [(0x3000, 0x8000)]) (fun t => t.run == .fatal ⟨.rti, 0x8000, 0x3001⟩) = true ∧
      after (machine 0x3000 [] flagZ [(0x3000, 0xF025)]) (fun t => t.run == .halted) = true ∧
      after (machine 0x3000 [] flagZ [(0x3000, 0xF020)]) (fun t => t.run == .blocked .getc) = true ∧
      after (machine 0x3000 [] flagZ [(0x3000, 0xF022)]) (fun t => t.run == .running) = true := by decide

theorem witness_ResetMeetsTheInvariant : Memory.wf [(0x3000, 0x1234#16)] = true ∧ (flagP = flagN ∨ flagP = flagZ ∨ flagP = flagP) := by
  decide

/-- Reset's state with an ended run, or a blocked one. -/
def ended (r : RunState) (m : ConsoleMode) : State := { State.reset with run := r, mode := m }

theorem inv_reset : Inv State.reset :=
  ⟨rfl, by decide, by decide, by decide, fun h => (by cases h), fun _ h => (by cases h)⟩

theorem inv_halted : Inv (ended .halted .original) :=
  ⟨rfl, by decide, by decide, by decide, fun _ => rfl, fun _ h => (by cases h)⟩

theorem inv_aborted : Inv (ended .aborted .original) :=
  ⟨rfl, by decide, by decide, by decide, fun h => (by cases h), fun _ h => (by cases h)⟩

theorem inv_fatal : Inv { ended (.fatal ⟨.res, 0xD000, 0x3000⟩) .original with ir := 0xD000 } :=
  ⟨rfl, by decide, by decide, by decide, fun h => (by cases h), fun _ h => (by cases h; decide)⟩

theorem witness_EveryStepKeepsTheInvariant : Inv State.reset ∧ ∃ t, step State.reset = .next t := ⟨inv_reset, _, rfl⟩

/-- Boot from an image that holds an origin and no word leaves the reset state. -/
theorem witness_EveryReachableStateMeetsTheInvariant : Reachable State.reset :=
  .boot (gprs := Vector.replicate 8 0) (cond := flagZ) (memInit := []) (images := [⟨"a", some [0x30, 0x00]⟩])
    (by decide) rfl rfl

theorem inv_puts : Inv (machine 0x3000 [(0, 0x4000)] flagZ [(0x3000, 0xF022), (0x4000, 0x0048)]) :=
  ⟨by decide, by decide, by decide, by decide, fun h => (by cases h), fun _ h => (by cases h)⟩

theorem inv_printing : Inv (ended (.printing .puts 0x4000) .raw) :=
  ⟨rfl, by decide, by decide, by decide, fun h => (by cases h), fun _ h => (by cases h)⟩

/-- Each event. -/
theorem witness_EveryTransitionKeepsTheInvariant :
    (Inv State.reset ∧ (∃ t, Transition .step State.reset t) ∧ (∃ t, Transition (.supply 0x41) State.reset t) ∧
      (∃ t, Transition (.settleDraw true) State.reset t) ∧ ∃ t, Transition .externalBreak State.reset t) ∧
    (∃ s t, Inv s ∧ Transition .enterString s t) ∧ ∃ s t, Inv s ∧ Transition .stringRead s t :=
  ⟨⟨inv_reset, ⟨_, rfl⟩, ⟨_, rfl⟩, ⟨_, rfl⟩, ⟨_, rfl⟩⟩, ⟨_, _, inv_puts, rfl⟩, ⟨_, _, inv_printing, rfl⟩⟩

theorem witness_ExternalBreakAbortsARunningOrBlockedCore :
    State.reset.run = .running ∧ (ended (.blocked .inEcho) .raw).run = .blocked .inEcho ∧
      (ended (.printing .puts 0x4000) .raw).run = .printing .puts 0x4000 ∧
      (ended .halted .original).run.live = false := ⟨rfl, rfl, rfl, rfl⟩

theorem witness_AnEndedRunStaysEnded :
    Inv (ended .halted .original) ∧ (ended .halted .original).run.live = false ∧
      Transition (.supply 0x41) (ended .halted .original) ((ended .halted .original).supply 0x41) :=
  ⟨inv_halted, rfl, rfl⟩

theorem witness_ExitCodesAreThoseOfTheExitPaths :
    (Inv (ended .halted .original) ∧ (ended .halted .original).run = .halted) ∧
      (∃ s r, Inv s ∧ s.run = .fatal r) ∧ (Inv (ended .aborted .original) ∧ (ended .aborted .original).run = .aborted) ∧
      (Inv State.reset ∧ State.reset.run.live = true) :=
  ⟨⟨inv_halted, rfl⟩, ⟨_, _, inv_fatal, rfl⟩, ⟨inv_aborted, rfl⟩, ⟨inv_reset, rfl⟩⟩

/-- V114's image: its second word wraps to address 0; address 1 is not reached. -/
theorem witness_ImageWordsArePlacedFromTheOrigin :
    Memory.wf [] = true ∧ [0xABCD#16, 0x1234#16][1]? = some 0x1234#16 ∧ 2 - 1 ≤ 65536 ∧
      ∀ k, k < 2 → 0x0001#16 ≠ 0xFFFF#16 + BitVec.ofNat 16 k := by
  refine ⟨rfl, rfl, by decide, by decide⟩

theorem witness_ImageErrorsAreUnreadableAndTruncated :
    ([] : List Byte).length < 2 ∧ [0x30#8].length < 2 ∧ [0x30#8, 0x00#8].length = 2 ∧
      [0x30#8, 0x00#8].length % 2 = 0 := by decide

theorem witness_BootLoadsTheImagesInOrderAndStartsAt3000 :
    loadImages [⟨"a", some [0x40, 0x00, 0xF0, 0x25]⟩] [] = .ok [(0x4000, 0xF025#16)] ∧
      loadImage ⟨"b", some [0x30]⟩ [(0x4000, 0xF025#16)] = .error .truncated ∧
      loadImage ⟨"c", none⟩ [(0x4000, 0xF025#16)] = .error .unreadable ∧
      loadImage ⟨"d", some [0x40, 0x00, 0x12, 0x34]⟩ [(0x4000, 0xF025#16)] = .ok [(0x4000, 0x1234#16)] :=
  ⟨rfl, rfl, rfl, rfl⟩

/-- V37's and V38's words, with the smallest and the largest value of each sign and 0. -/
theorem witness_BranchTestsTheSignOfTheLastDefinedValue :
    (0x0805#16).extractLsb' 12 4 = 0x0#4 ∧ (0x0A05#16).extractLsb' 12 4 = 0x0#4 ∧
      (0x8000#16).toInt < 0 ∧ (0xFFFF#16).toInt < 0 ∧ (0x0000#16).toInt = 0 ∧ 0 < (0x0001#16).toInt ∧
      0 < (0x7FFF#16).toInt := by decide

end Sys2Proof.Tests
end

section
/-! What one step of a running core is (spec/10_state.md R23): the fetch, then `exec` of the decoded word. -/

namespace Sys2Proof.Machine

/-- The `running` equation of `step`. -/
theorem step_of_running {s : State} (hrun : s.run = .running) : step s = exec (decode s.fetch.ir) s.fetch := by
  unfold step
  rw [hrun]

/-- The fetch, by the two results of its `MemRead`. -/
theorem State.fetch_of_memRead {s s1 : State} {w : Word} (hread : s.memRead s.pc = (w, s1)) :
    s.fetch = { s1 with ir := w, pc := s.pc + 1 } := by
  unfold State.fetch
  rw [hread]

/-- Settles O40, by the `running` equation of `step` and the fetch's one `MemRead`. -/
theorem stepFetchesIncrementsAndRunsTheDecodedInstruction :
    Obligations.StepFetchesIncrementsAndRunsTheDecodedInstruction := by
  intro s s1 w hrun hread
  rw [step_of_running hrun, State.fetch_of_memRead hread]

end Sys2Proof.Machine
end

section
/-! The memory port (spec/20_memory.md R45): only a read of KBSR has a side effect. -/

namespace Sys2Proof.Machine

/-- The plain case of `State.memRead_cases`. -/
theorem State.memRead_of_ne_kbsrAddr (s : State) {a : Word} (ha : a ≠ kbsrAddr) :
    s.memRead a = (s.mem.read a, s) := by
  obtain ⟨-, plain⟩ | ⟨kbsr, -⟩ := s.memRead_cases a
  · exact plain
  · exact absurd kbsr ha

theorem kbdrAddr_ne_kbsrAddr : kbdrAddr ≠ kbsrAddr := by decide

/-- Settles O17: KBDR is one of the addresses other than KBSR, so its read is plain too. -/
theorem readOfAnyOtherAddressChangesNothing : Obligations.ReadOfAnyOtherAddressChangesNothing :=
  ⟨fun s _ ha => s.memRead_of_ne_kbsrAddr ha, fun s => s.memRead_of_ne_kbsrAddr kbdrAddr_ne_kbsrAddr⟩

end Sys2Proof.Machine
end

section
/-! The flag-update logic (spec/40_operate.md R100): the flag of a word, case by case and by its sign. -/

namespace Sys2Proof.Machine

@[simp] theorem flagOf_zero : flagOf 0x0000#16 = flagZ := rfl

/-- A word with bit 15 set is not zero, so the zero test that comes first does not catch it. -/
theorem flagOf_of_bit15 {v : Word} (hv : v.getLsbD 15 = true) : flagOf v = flagN := by
  have hne : v ≠ 0x0000#16 := by
    rintro rfl
    simp at hv
  rw [flagOf, if_neg hne, if_pos hv]

theorem flagOf_of_positive {v : Word} (hne : v ≠ 0x0000#16) (hv : v.getLsbD 15 = false) : flagOf v = flagP := by
  rw [flagOf, if_neg hne, if_neg (Bool.eq_false_iff.mp hv)]

/-- Bit 15 is the sign of the signed reading. -/
theorem bit15_eq_toInt_neg (v : Word) : v.getLsbD 15 = decide (v.toInt < 0) := by
  rw [← BitVec.msb_eq_toInt, BitVec.msb_eq_getLsbD_last]

/-- R100's test of zero and bit 15 gives the flag of the signed reading. -/
theorem flagOf_eq_signFlag (v : Word) : flagOf v = signFlag v := by
  by_cases hzero : v = 0x0000#16
  · subst hzero
    rfl
  · by_cases hneg : v.toInt < 0
    · have hbit : v.getLsbD 15 = true := by rw [bit15_eq_toInt_neg, decide_eq_true hneg]
      rw [flagOf_of_bit15 hbit, signFlag, if_pos hneg]
    · have hbit : v.getLsbD 15 = false := by rw [bit15_eq_toInt_neg, decide_eq_false hneg]
      have hne : v.toInt ≠ 0 := BitVec.toInt_ne.mpr hzero
      rw [flagOf_of_positive hzero hbit, signFlag, if_neg hneg, if_neg hne]

end Sys2Proof.Machine
end

section
/-! How the flag-setting instructions end (spec/10_state.md R27): with a `State.define`, of whose destination, flag and frame
one lemma speaks for all of them. -/

namespace Sys2Proof.Machine

@[simp] theorem State.reg_define_self (s : State) (dr : Reg) (v : Word) : (s.define dr v).reg dr = v := by
  rw [State.reg_define, if_pos rfl]

theorem State.otherRegsSame_define (s : State) (dr : Reg) (v : Word) : OtherRegsSame dr s (s.define dr v) := by
  intro r hr
  rw [State.reg_define, if_neg hr]

/-- `State.define` gives `dr` the value, `cond` its flag, and changes nothing else. -/
theorem State.defines_define (s : State) (dr : Reg) (v : Word) : Defines dr v s (s.define dr v) :=
  ⟨s.reg_define_self dr v, flagOf_eq_signFlag v, s.otherRegsSame_define dr v, rfl, fun _ => rfl, ⟨rfl, rfl, rfl⟩,
    ⟨rfl, rfl, rfl⟩, ⟨rfl, rfl⟩⟩

section
variable (dr : Reg) (s : State)

theorem exec_addReg (sr1 sr2 : Reg) : exec (.addReg dr sr1 sr2) s = .next (s.define dr (s.reg sr1 + s.reg sr2)) := rfl

theorem exec_addImm (sr1 : Reg) (imm5 : BitVec 5) :
    exec (.addImm dr sr1 imm5) s = .next (s.define dr (s.reg sr1 + imm5.signExtend 16)) := rfl

theorem exec_andReg (sr1 sr2 : Reg) : exec (.andReg dr sr1 sr2) s = .next (s.define dr (s.reg sr1 &&& s.reg sr2)) := rfl

theorem exec_andImm (sr1 : Reg) (imm5 : BitVec 5) :
    exec (.andImm dr sr1 imm5) s = .next (s.define dr (s.reg sr1 &&& imm5.signExtend 16)) := rfl

theorem exec_not (sr : Reg) : exec (.not dr sr) s = .next (s.define dr (~~~ s.reg sr)) := rfl

theorem exec_lea (off : BitVec 9) : exec (.lea dr off) s = .next (s.define dr (s.pcRelative off)) := rfl

theorem exec_ld (off : BitVec 9) : exec (.ld dr off) s = .next (s.loadFrom dr (s.pcRelative off)) := rfl

theorem exec_ldr (base : Reg) (off : BitVec 6) :
    exec (.ldr dr base off) s = .next (s.loadFrom dr (s.baseOffset base off)) := rfl

theorem exec_ldi (off : BitVec 9) : exec (.ldi dr off) s =
    .next ((s.memRead (s.pcRelative off)).2.loadFrom dr (s.memRead (s.pcRelative off)).1) := rfl

end

/-- Every flag-setting instruction completes with a `State.define` of its DR; a load's is in the state its reads leave. -/
theorem exec_of_flagDest {i : Instr} {dr : Reg} (h : i.flagDest = some dr) (s : State) :
    ∃ (s1 : State) (v : Word), exec i s = .next (s1.define dr v) := by
  cases i <;> cases h
  case addReg sr1 sr2 => exact ⟨_, _, exec_addReg dr s sr1 sr2⟩
  case addImm sr1 imm5 => exact ⟨_, _, exec_addImm dr s sr1 imm5⟩
  case andReg sr1 sr2 => exact ⟨_, _, exec_andReg dr s sr1 sr2⟩
  case andImm sr1 imm5 => exact ⟨_, _, exec_andImm dr s sr1 imm5⟩
  case not sr => exact ⟨_, _, exec_not dr s sr⟩
  case lea off => exact ⟨_, _, exec_lea dr s off⟩
  case ld off => exact ⟨_, _, exec_ld dr s off⟩
  case ldr base off => exact ⟨_, _, exec_ldr dr s base off⟩
  case ldi off => exact ⟨_, _, exec_ldi dr s off⟩

/-- Settles O7: `setcc` by the three cases of `flagOf`, the instructions by the `State.define` each of them ends with. -/
theorem flagsFollowTheValueWrittenToTheDestination : Obligations.FlagsFollowTheValueWrittenToTheDestination := by
  constructor
  · intro s v
    refine ⟨fun hzero => ?_, fun hneg => ?_, fun hne hpos => ?_⟩
    · rw [State.setcc, hzero, flagOf_zero]
    · rw [State.setcc, flagOf_of_bit15 hneg]
    · rw [State.setcc, flagOf_of_positive hne hpos]
  · intro i dr s hdest
    obtain ⟨s1, v, hexec⟩ := exec_of_flagDest hdest s
    exact ⟨s1.define dr v, hexec, by simp⟩

end Sys2Proof.Machine
end

section
/-! The operate instructions (spec/40_operate.md R101 to R105): each is one `State.define`, of a value computed from the
state before it. -/

namespace Sys2Proof.Machine

/-- Settles O8: any of DR, SR1 and SR2 may be one register, for the sum is formed before the write. -/
theorem addRegisterGivesTheSum : Obligations.AddRegisterGivesTheSum :=
  fun dr sr1 sr2 s => ⟨_, exec_addReg dr s sr1 sr2, s.defines_define dr _⟩

/-- Settles O9, by ADD's immediate rule and the frame of `State.define`. -/
theorem addImmediateGivesTheSum : Obligations.AddImmediateGivesTheSum :=
  fun dr sr1 imm5 s => ⟨_, exec_addImm dr s sr1 imm5, s.defines_define dr _⟩

/-- Settles O10, by AND's register rule and the frame of `State.define`. -/
theorem andRegisterGivesTheConjunction : Obligations.AndRegisterGivesTheConjunction :=
  fun dr sr1 sr2 s => ⟨_, exec_andReg dr s sr1 sr2, s.defines_define dr _⟩

/-- Settles O11, by AND's immediate rule and the frame of `State.define`. -/
theorem andImmediateGivesTheConjunction : Obligations.AndImmediateGivesTheConjunction :=
  fun dr sr1 imm5 s => ⟨_, exec_andImm dr s sr1 imm5, s.defines_define dr _⟩

/-- Settles O12, by NOT's rule and the frame of `State.define`. -/
theorem notGivesTheComplement : Obligations.NotGivesTheComplement :=
  fun dr sr s => ⟨_, exec_not dr s sr, s.defines_define dr _⟩

end Sys2Proof.Machine
end

section
/-! The conditional branch (spec/41_control.md R120): when BR's test holds, and the two ways BR ends. -/

namespace Sys2Proof.Machine

theorem branchTaken_iff {nzp cond : BitVec 3} : branchTaken nzp cond = true ↔ nzp &&& cond ≠ 0b000#3 := by
  rw [branchTaken, bne_iff_ne]

theorem not_branchTaken_zero (cond : BitVec 3) : ¬ branchTaken 0b000 cond = true := by
  rw [branchTaken_iff, not_ne_iff]
  exact BitVec.zero_and

/-- BRnzp is taken because `cond` holds a flag; on a `cond` of 0b000 it would not be. -/
theorem branchTaken_all_of_flag {cond : BitVec 3} (hflag : cond = flagN ∨ cond = flagZ ∨ cond = flagP) :
    branchTaken 0b111 cond = true := by
  obtain rfl | rfl | rfl := hflag <;> rfl

section
variable {nzp : BitVec 3} (off : BitVec 9) {s : State}

theorem exec_br_taken (htaken : branchTaken nzp s.cond = true) :
    exec (.br nzp off) s = .next (s.setPc (s.pcRelative off)) :=
  congrArg Host.Outcome.next (if_pos htaken)

theorem exec_br_not_taken (hnot : ¬ branchTaken nzp s.cond = true) : exec (.br nzp off) s = .next s :=
  congrArg Host.Outcome.next (if_neg hnot)

end

/-- Settles O13, by BR's two ends: whether the mask meets `cond` decides the general clause; the masks 0b000 and 0b111
fall on one side each. -/
theorem branchMovesPcWhenItsMaskMeetsCond : Obligations.BranchMovesPcWhenItsMaskMeetsCond := by
  intro nzp off s
  refine ⟨?_, exec_br_not_taken off (not_branchTaken_zero s.cond),
    fun hflag => exec_br_taken off (branchTaken_all_of_flag hflag)⟩
  by_cases hmeets : nzp &&& s.cond ≠ 0b000#3
  · rw [if_pos hmeets]
    exact exec_br_taken off (branchTaken_iff.mpr hmeets)
  · rw [if_neg hmeets]
    exact exec_br_not_taken off (mt branchTaken_iff.mp hmeets)

end Sys2Proof.Machine
end

section
/-! The jumps (spec/41_control.md R121, R122): JMP only sets `pc`; a linking jump gives R7 the incremented `pc` too. -/

namespace Sys2Proof.Machine

theorem State.otherRegsSame_setReg (s : State) (r : Reg) (v : Word) : OtherRegsSame r s (s.setReg r v) :=
  fun _ hne => s.reg_setReg_of_ne hne v

theorem exec_jmp (base : Reg) (s : State) : exec (.jmp base) s = .next (s.setPc (s.reg base)) := rfl

theorem exec_jsr (off : BitVec 11) (s : State) :
    exec (.jsr off) s = .next ((s.setReg linkReg s.pc).setPc (s.pcRelative off)) := rfl

/-- Settles O14: JMP's one `setPc`, whichever register is the base. -/
theorem jumpGoesToTheBaseRegister : Obligations.JumpGoesToTheBaseRegister :=
  fun base s => exec_jmp base s

/-- Settles O15: the link is a `setReg` of R7, whose read-back and frame `setPc` keeps; the target is formed from the
same incremented `pc`. -/
theorem jsrLinksAndGoesToTheOffset : Obligations.JsrLinksAndGoesToTheOffset := by
  intro off s
  have hlink : (s.setReg linkReg s.pc).reg 7 = s.pc := s.reg_setReg_self linkReg s.pc
  have hothers : OtherRegsSame 7 s (s.setReg linkReg s.pc) := s.otherRegsSame_setReg linkReg s.pc
  exact ⟨_, exec_jsr off s, hlink, hothers, rfl, rfl⟩

end Sys2Proof.Machine
end

section
/-! The loads and LEA (spec/42_load_store.md R140 to R143): a load is a `State.define` in the state its reads leave, so its
frame is that of `MemRead`, which touches the keyboard cells and the console input alone, with the destination and the flag. -/

namespace Sys2Proof.Machine

theorem State.sameButKeyboard_memRead (s : State) (a : Word) : SameButKeyboard s (s.memRead a).2 :=
  ⟨s.memRead_reg a, s.memRead_pc a, s.memRead_cond a, fun _ hkbsr hkbdr => s.memRead_read a hkbsr hkbdr,
    ⟨s.memRead_output a, s.memRead_flushed a, s.memRead_mode a⟩, s.memRead_ir a, s.memRead_run a⟩

/-- What a register definition leaves unchanged when reads alone came before it. -/
theorem SameButKeyboard.define_frame {s s1 : State} (hreads : SameButKeyboard s s1) (dr : Reg) (v : Word) :
    OtherRegsSame dr s (s1.define dr v) ∧ (s1.define dr v).pc = s.pc ∧ OutputSame s (s1.define dr v) ∧
      ControlSame s (s1.define dr v) ∧ PlainMemSame s (s1.define dr v) := by
  obtain ⟨hregs, hpc, -, hmem, houtput, hcontrol⟩ := hreads
  have hothers : OtherRegsSame dr s (s1.define dr v) :=
    fun r hne => (s1.otherRegsSame_define dr v r hne).trans (hregs r)
  exact ⟨hothers, hpc, houtput, hcontrol, hmem⟩

theorem SameButKeyboard.trans {s s1 s2 : State} (h1 : SameButKeyboard s s1) (h2 : SameButKeyboard s1 s2) :
    SameButKeyboard s s2 := by
  obtain ⟨hregs1, hpc1, hcond1, hmem1, ⟨hout1, hflushed1, hmode1⟩, hir1, hrun1⟩ := h1
  obtain ⟨hregs2, hpc2, hcond2, hmem2, ⟨hout2, hflushed2, hmode2⟩, hir2, hrun2⟩ := h2
  exact ⟨fun r => (hregs2 r).trans (hregs1 r), hpc2.trans hpc1, hcond2.trans hcond1,
    fun a hkbsr hkbdr => (hmem2 a hkbsr hkbdr).trans (hmem1 a hkbsr hkbdr),
    ⟨hout2.trans hout1, hflushed2.trans hflushed1, hmode2.trans hmode1⟩, hir2.trans hir1, hrun2.trans hrun1⟩

theorem State.loadFrom_of_ne_kbsrAddr (s : State) (dr : Reg) {ea : Word} (hea : ea ≠ kbsrAddr) :
    s.loadFrom dr ea = s.define dr (s.mem.read ea) := by
  rw [State.loadFrom, s.memRead_of_ne_kbsrAddr hea]

/-- All that R140 and R142 say of a load from `ea`, however `ea` was formed. -/
theorem State.loadFrom_gives_word_read (s : State) (dr : Reg) (ea : Word) :
    Defines dr (s.memRead ea).1 (s.memRead ea).2 (s.loadFrom dr ea) ∧
      OtherRegsSame dr s (s.loadFrom dr ea) ∧ (s.loadFrom dr ea).pc = s.pc ∧ OutputSame s (s.loadFrom dr ea) ∧
      ControlSame s (s.loadFrom dr ea) ∧ PlainMemSame s (s.loadFrom dr ea) ∧
      (ea ≠ kbsrAddr → Defines dr (s.mem.read ea) s (s.loadFrom dr ea)) := by
  obtain ⟨hothers, hpc, houtput, hcontrol, hmem⟩ :=
    (s.sameButKeyboard_memRead ea).define_frame dr (s.memRead ea).1
  refine ⟨State.defines_define _ dr _, hothers, hpc, houtput, hcontrol, hmem, fun hea => ?_⟩
  rw [s.loadFrom_of_ne_kbsrAddr dr hea]
  exact s.defines_define dr _

/-- Settles O21: LD and LDR are one load, from two forms of address. -/
theorem loadGivesTheWordReadAtItsAddress : Obligations.LoadGivesTheWordReadAtItsAddress := by
  rintro i dr ea s (⟨off, rfl, rfl⟩ | ⟨base, off, rfl, rfl⟩)
  · exact ⟨_, exec_ld dr s off, s.loadFrom_gives_word_read dr _⟩
  · exact ⟨_, exec_ldr dr s base off, s.loadFrom_gives_word_read dr _⟩

/-- Settles O22: the load is made in the state the pointer's read leaves, and the frame is that of the two reads together.
With neither address KBSR both reads are plain, and the load is from the pointer in the state before. -/
theorem loadIndirectGivesTheWordPointedTo : Obligations.LoadIndirectGivesTheWordPointedTo := by
  intro dr off s
  rcases hread : s.memRead (s.pcRelative off) with ⟨p, s1⟩
  have hexec : exec (.ldi dr off) s = .next (s1.loadFrom dr p) := by rw [exec_ldi, hread]
  have hpointer : SameButKeyboard s s1 := by
    have hkept := s.sameButKeyboard_memRead (s.pcRelative off)
    rwa [hread] at hkept
  obtain ⟨hothers, hpc, houtput, hcontrol, hmem⟩ :=
    (hpointer.trans (s1.sameButKeyboard_memRead p)).define_frame dr (s1.memRead p).1
  obtain ⟨hdefines, -, -, -, -, -, hplain⟩ := s1.loadFrom_gives_word_read dr p
  refine ⟨s1.loadFrom dr p, p, s1, hexec, hread, hdefines, hothers, hpc, houtput, hcontrol, hmem, fun hea hp => ?_⟩
  obtain ⟨rfl, rfl⟩ : s.mem.read (s.pcRelative off) = p ∧ s = s1 :=
    Prod.mk.inj ((s.memRead_of_ne_kbsrAddr hea).symm.trans hread)
  exact hplain hp

/-- Settles O23: LEA is one `State.define`, with no `MemRead` before it. -/
theorem leaGivesTheAddress : Obligations.LeaGivesTheAddress :=
  fun dr off s => ⟨_, exec_lea dr s off, s.defines_define dr _⟩

end Sys2Proof.Machine
end

section
/-! The trap routines (spec/43_trap.md R170, R175): the dispatcher's rule for OUT, and what `ConsoleWrite` changes. -/

namespace Sys2Proof.Machine

theorem State.consoleWrite_eq (s : State) (b : Byte) : s.consoleWrite b = { s with output := s.output ++ [b] } := rfl

theorem exec_trap_out (s : State) : exec (.trap 0x21#8) s = .next (s.consoleWrite (lowByte (s.reg argReg))) := rfl

/-- Settles O31: OUT is one `ConsoleWrite` of R0's low byte, and that write extends `output` alone. -/
theorem outWritesTheLowByteOfR0 : Obligations.OutWritesTheLowByteOfR0 := by
  intro s
  rw [exec_trap_out, State.consoleWrite_eq]
  rfl

end Sys2Proof.Machine
end

section
/-! The codec, field by field (spec/30_encoding.md R71 to R87). The fields `encode` places do not overlap, so that each is
read back where it was placed; a word's opcode and mode flags tell its table row, which fixes the fields that are read. -/

namespace Sys2Proof

/-! ### Reading placed fields back -/

theorem extractLsb'_place_self {n lo : Nat} (h : lo + n ≤ 16) (f : BitVec n) : (place f lo).extractLsb' lo n = f := by
  apply BitVec.eq_of_getLsbD_eq
  intro k hk
  rw [BitVec.getLsbD_extractLsb', getLsbD_place]
  simp [hk, show lo + k < 16 by omega]

theorem extractLsb'_place_of_disjoint {n m lo pos : Nat} (h : pos + n ≤ lo ∨ lo + m ≤ pos) (f : BitVec n) :
    (place f pos).extractLsb' lo m = 0#m := by
  apply BitVec.eq_of_getLsbD_eq
  intro k hk
  rw [BitVec.getLsbD_extractLsb', getLsbD_place]
  by_cases hle : pos ≤ lo + k
  · simp [BitVec.getLsbD_of_ge f (lo + k - pos) (by omega)]
  · simp [hle]

/-- The instruction of table row `k` with its operands read from the row's fields of `w`. -/
def Instr.ofRow (k : Fin 19) (w : Word) : Instr :=
  match k with
  | 0 => .br (bits11to9 w) (pcOffset9Field w)
  | 1 => .addReg (drField w) (srField w) (sr2Field w)
  | 2 => .addImm (drField w) (srField w) (imm5Field w)
  | 3 => .ld (drField w) (pcOffset9Field w)
  | 4 => .st (drField w) (pcOffset9Field w)
  | 5 => .jsr (pcOffset11Field w)
  | 6 => .jsrr (srField w)
  | 7 => .andReg (drField w) (srField w) (sr2Field w)
  | 8 => .andImm (drField w) (srField w) (imm5Field w)
  | 9 => .ldr (drField w) (srField w) (offset6Field w)
  | 10 => .str (drField w) (srField w) (offset6Field w)
  | 11 => .rti
  | 12 => .not (drField w) (srField w)
  | 13 => .ldi (drField w) (pcOffset9Field w)
  | 14 => .sti (drField w) (srField w) (offset6Field w)
  | 15 => .jmp (srField w)
  | 16 => .res
  | 17 => .lea (drField w) (pcOffset9Field w)
  | _ => .trap (trapvect8Field w)

@[simp] theorem Instr.row_ofRow (k : Fin 19) (w : Word) : (Instr.ofRow k w).row = k := by
  fin_cases k <;> rfl

/-- The operands of an instruction are read back from the places the encoder gives them. -/
theorem Instr.ofRow_encode (i : Instr) : Instr.ofRow i.row (encode i) = i := by
  cases i <;>
    simp [Instr.row, Instr.ofRow, encode, drField, srField, sr2Field, bits11to9, bits8to6, bits2to0, imm5Field,
      offset6Field, pcOffset9Field, pcOffset11Field, trapvect8Field, BitVec.extractLsb'_or, extractLsb'_place_self,
      extractLsb'_place_of_disjoint]

/-! ### The rows of the opcode table -/

/-- Row `k` of the opcode table. -/
def tableRow (k : Fin 19) : TableRow := opcodeTable.get k

theorem tableRow_of_getElem? {k : Nat} {r : TableRow} (h : opcodeTable[k]? = some r) :
    ∃ hk : k < 19, tableRow ⟨k, hk⟩ = r := by
  obtain ⟨hk, hr⟩ := List.getElem?_eq_some_iff.mp h
  exact ⟨hk, hr⟩

theorem TableRow.covers_iff {r : TableRow} {w : Word} : r.covers w = true ↔ w &&& r.mask = r.pattern := beq_iff_eq

/-- What one row's words fix, what they ignore and what they hold are told apart by the bits. -/
theorem tableRow_bits_disjoint (k : Fin 19) :
    (tableRow k).pattern &&& (tableRow k).mask = (tableRow k).pattern ∧
      (tableRow k).standard &&& (tableRow k).mask = 0#16 ∧ (tableRow k).ignored &&& (tableRow k).mask = 0#16 := by
  decide +revert

/-- The patterns of two rows differ in a bit that both masks hold. -/
theorem tableRow_disjoint (j k : Fin 19)
    (h : (tableRow j).pattern &&& (tableRow k).mask = (tableRow k).pattern &&& (tableRow j).mask) : j = k := by
  decide +revert

/-- No word is of two rows. -/
theorem row_unique {j k : Fin 19} {w : Word} (hj : (tableRow j).covers w = true) (hk : (tableRow k).covers w = true) :
    j = k := by
  apply tableRow_disjoint
  rw [← TableRow.covers_iff.mp hj, ← TableRow.covers_iff.mp hk, BitVec.and_assoc, BitVec.and_assoc,
    BitVec.and_comm (tableRow j).mask]

/-! ### Masks and fields -/

theorem place_extractLsb' (w : Word) (lo n : Nat) :
    place (w.extractLsb' lo n) lo = w &&& place (BitVec.allOnes n) lo := by
  apply BitVec.eq_of_getLsbD_eq
  intro k hk
  rw [getLsbD_place_extract, BitVec.getLsbD_and, getLsbD_place, BitVec.getLsbD_allOnes]
  by_cases hle : lo ≤ k
  · simp [hk, hle, show k - lo < n ↔ k < lo + n by omega, Bool.and_comm]
  · simp [hle]

section
variable (w : Word)

theorem place_opcodeField : place (opcodeField w) 12 = w &&& 0xF000#16 := place_extractLsb' w 12 4
theorem place_bits11to9 : place (bits11to9 w) 9 = w &&& 0x0E00#16 := place_extractLsb' w 9 3
theorem place_bits8to6 : place (bits8to6 w) 6 = w &&& 0x01C0#16 := place_extractLsb' w 6 3
theorem place_bits2to0 : place (bits2to0 w) 0 = w &&& 0x0007#16 := place_extractLsb' w 0 3
theorem place_imm5Field : place (imm5Field w) 0 = w &&& 0x001F#16 := place_extractLsb' w 0 5
theorem place_offset6Field : place (offset6Field w) 0 = w &&& 0x003F#16 := place_extractLsb' w 0 6
theorem place_pcOffset9Field : place (pcOffset9Field w) 0 = w &&& 0x01FF#16 := place_extractLsb' w 0 9
theorem place_pcOffset11Field : place (pcOffset11Field w) 0 = w &&& 0x07FF#16 := place_extractLsb' w 0 11
theorem place_trapvect8Field : place (trapvect8Field w) 0 = w &&& 0x00FF#16 := place_extractLsb' w 0 8

end

/-- The encoder keeps a row's operand bits, sets its fixed bits to the pattern and its ignored bits to the standard. -/
theorem encode_ofRow (k : Fin 19) (w : Word) : encode (Instr.ofRow k w) =
    (tableRow k).pattern ||| (w &&& ~~~ ((tableRow k).mask ||| (tableRow k).ignored)) ||| (tableRow k).standard := by
  have literals (op : BitVec 4) (n : Nat) (f : BitVec n) (lo : Nat) (a b : Word) :
      place op 12 ||| (a ||| (place f lo ||| b)) = place op 12 ||| place f lo ||| (a ||| b) := by
    rw [← BitVec.or_assoc a, BitVec.or_comm a, BitVec.or_assoc, BitVec.or_assoc]
  fin_cases k <;>
    simp [Instr.ofRow, encode, tableRow, opcodeTable, drField, srField, sr2Field, place_bits11to9, place_bits8to6,
      place_bits2to0, place_imm5Field, place_offset6Field, place_pcOffset9Field, place_pcOffset11Field,
      place_trapvect8Field, BitVec.or_assoc, ← BitVec.and_or_distrib_left, literals] <;>
    simp [place, ← BitVec.or_assoc]

/-! ### The decoder, row by row -/

/-- The table row of a word, from the opcode and the two mode flags (R71), in the decoder's order. -/
def rowOfFields (op : BitVec 4) (imm long : Bool) : Fin 19 :=
  if op = 0x0#4 then 0
  else if op = 0x1#4 then if imm then 2 else 1
  else if op = 0x2#4 then 3
  else if op = 0x3#4 then 4
  else if op = 0x4#4 then if long then 5 else 6
  else if op = 0x5#4 then if imm then 8 else 7
  else if op = 0x6#4 then 9
  else if op = 0x7#4 then 10
  else if op = 0x8#4 then 11
  else if op = 0x9#4 then 12
  else if op = 0xA#4 then 13
  else if op = 0xB#4 then 14
  else if op = 0xC#4 then 15
  else if op = 0xD#4 then 16
  else if op = 0xE#4 then 17
  else 18

theorem decode_eq_ofRow (w : Word) :
    decode w = Instr.ofRow (rowOfFields (opcodeField w) (immFlag w) (longFlag w)) w := by
  simp only [rowOfFields, apply_ite (Instr.ofRow · w)]
  rfl

theorem row_decode (w : Word) : (decode w).row = rowOfFields (opcodeField w) (immFlag w) (longFlag w) := by
  rw [decode_eq_ofRow, Instr.row_ofRow]

/-- A word's opcode and mode flags, each at its place. -/
def rowBits (op : BitVec 4) (imm long : Bool) : Word :=
  place op 12 ||| place (BitVec.ofBool imm) 5 ||| place (BitVec.ofBool long) 11

theorem rowBits_of_word (w : Word) : rowBits (opcodeField w) (immFlag w) (longFlag w) = w &&& 0xF820#16 := by
  have imm : BitVec.ofBool (immFlag w) = w.extractLsb' 5 1 := BitVec.eq_of_getLsbD_eq (by simp [immFlag])
  have long : BitVec.ofBool (longFlag w) = w.extractLsb' 11 1 := BitVec.eq_of_getLsbD_eq (by simp [longFlag])
  rw [rowBits, imm, long, place_opcodeField, place_extractLsb', place_extractLsb', ← BitVec.and_or_distrib_left,
    ← BitVec.and_or_distrib_left]
  rfl

/-- The opcode and the mode flags are all that any row's mask looks at. -/
theorem tableRow_mask (k : Fin 19) : 0xF820#16 &&& (tableRow k).mask = (tableRow k).mask := by
  decide +revert

theorem rowBits_and_mask (op : BitVec 4) (imm long : Bool) :
    rowBits op imm long &&& (tableRow (rowOfFields op imm long)).mask =
      (tableRow (rowOfFields op imm long)).pattern := by
  decide +revert

theorem row_decode_covers (w : Word) : (tableRow (decode w).row).covers w = true := by
  rw [TableRow.covers_iff, row_decode, ← rowBits_and_mask, rowBits_of_word, BitVec.and_assoc, tableRow_mask]

/-- A word decodes by the one row that covers it. -/
theorem row_decode_eq_iff {k : Fin 19} {w : Word} : (decode w).row = k ↔ (tableRow k).covers w = true := by
  constructor
  · rintro rfl
    exact row_decode_covers w
  · exact row_unique (row_decode_covers w)

theorem decode_of_covers {k : Fin 19} {w : Word} (h : (tableRow k).covers w = true) : decode w = Instr.ofRow k w := by
  rw [decode_eq_ofRow, ← row_decode, row_decode_eq_iff.mpr h]

theorem encode_decode {k : Fin 19} {w : Word} (h : (tableRow k).covers w = true) : encode (decode w) =
    (tableRow k).pattern ||| (w &&& ~~~ ((tableRow k).mask ||| (tableRow k).ignored)) ||| (tableRow k).standard := by
  rw [decode_of_covers h, encode_ofRow]

theorem row_covers_encode (i : Instr) : (tableRow i.row).covers (encode i) = true := by
  have hencode := encode_ofRow i.row (encode i)
  rw [Instr.ofRow_encode] at hencode
  obtain ⟨hpattern, hstandard, -⟩ := tableRow_bits_disjoint i.row
  have hoperands (w m g : Word) : w &&& ~~~ (m ||| g) &&& m = 0#16 := by
    ext k hk
    cases hm : m[k] <;> simp [hm]
  rw [TableRow.covers_iff, hencode, BitVec.and_or_distrib_right, BitVec.and_or_distrib_right, hpattern, hstandard,
    hoperands, BitVec.or_zero, BitVec.or_zero]

/-- The opcode number stands in the top four bits of every encoded instruction. -/
theorem opcodeField_encode (i : Instr) : opcodeField (encode i) = i.opcode := by
  cases i with
  | br nzp off => exact Laws.Opcode.br nzp off
  | addReg dr sr1 sr2 => exact Laws.Opcode.addReg dr sr1 sr2
  | addImm dr sr1 imm => exact Laws.Opcode.addImm dr sr1 imm
  | ld dr off => exact Laws.Opcode.ld dr off
  | st sr off => exact Laws.Opcode.st sr off
  | jsr off => exact Laws.Opcode.jsr off
  | jsrr base => exact Laws.Opcode.jsrr base
  | andReg dr sr1 sr2 => exact Laws.Opcode.andReg dr sr1 sr2
  | andImm dr sr1 imm => exact Laws.Opcode.andImm dr sr1 imm
  | ldr dr base off => exact Laws.Opcode.ldr dr base off
  | str sr base off => exact Laws.Opcode.str sr base off
  | rti => exact Laws.Opcode.rti
  | not dr sr => exact Laws.Opcode.not dr sr
  | ldi dr off => exact Laws.Opcode.ldi dr off
  | sti sr base off => exact Laws.Opcode.sti sr base off
  | jmp base => exact Laws.Opcode.jmp base
  | res => exact Laws.Opcode.res
  | lea dr off => exact Laws.Opcode.lea dr off
  | trap vect => exact Laws.Opcode.trap vect

theorem opcodeField_and (v w : Word) : opcodeField (v &&& w) = opcodeField v &&& opcodeField w := by
  simp only [opcodeField, BitVec.extractLsb'_and]

theorem opcodeField_tableRow_mask (k : Fin 19) : opcodeField (tableRow k).mask = BitVec.allOnes 4 := by
  decide +revert

theorem opcodeField_of_covers {k : Fin 19} {w : Word} (h : (tableRow k).covers w = true) :
    opcodeField w = opcodeField (tableRow k).pattern := by
  rw [← TableRow.covers_iff.mp h, opcodeField_and, opcodeField_tableRow_mask, BitVec.and_allOnes]

/-- The decoded instruction's opcode number is that of the word (R71, R72). -/
theorem opcode_decode (w : Word) : (decode w).opcode = opcodeField w := by
  rw [← opcodeField_encode, opcodeField_of_covers (row_covers_encode _), opcodeField_of_covers (row_decode_covers w)]

/-- Settles O1: an instruction's word is of the instruction's row, so that the decoder reads the row's fields, and each
of them is what the encoder placed there. -/
theorem decodeOfEncodeGivesTheInstructionBack : Obligations.DecodeOfEncodeGivesTheInstructionBack := by
  intro i
  rw [decode_of_covers (row_covers_encode i), Instr.ofRow_encode]

/-- Settles O2: encoding a decoded word sets its ignored bits to the standard, where a standard word has them. -/
theorem encodeOfDecodeGivesAStandardWordBack : Obligations.EncodeOfDecodeGivesAStandardWordBack := by
  intro w hstandard
  have hcovers := row_decode_covers w
  set k := (decode w).row
  have hignored : w &&& (tableRow k).ignored = (tableRow k).standard := by
    have hrow := List.all_eq_true.mp hstandard (tableRow k) (List.get_mem _ _)
    simpa [hcovers] using hrow
  have hsplit (m g : Word) : w &&& m ||| w &&& ~~~ (m ||| g) ||| w &&& g = w := by
    ext i hi
    cases hm : m[i] <;> cases hg : g[i] <;> simp [hm, hg]
  rw [encode_decode hcovers, ← hignored, ← TableRow.covers_iff.mp hcovers, hsplit]

/-- A change inside `ignored` is not seen through a mask outside it. -/
theorem xor_and_of_ignored {change ignored m : Word} (hchange : change &&& ~~~ ignored = 0#16)
    (hdisjoint : ignored &&& m = 0#16) (w : Word) : (w ^^^ change) &&& m = w &&& m := by
  ext i hi
  cases hm : m[i] with
  | false => simp [hm]
  | true =>
    have hignored : ignored[i] = false := by simpa [hm] using congrArg (·[i]) hdisjoint
    have hkept : change[i] = false := by simpa [hignored] using congrArg (·[i]) hchange
    simp [hm, hkept]

/-- Settles O3: the changed word is of the same row, and its operand bits, which are all that the row's instruction is
encoded from, are the same. -/
theorem ignoredBitsDoNotChangeTheInstruction : Obligations.IgnoredBitsDoNotChangeTheInstruction := by
  intro r hr w change hcovers hchange
  obtain ⟨k, rfl⟩ : ∃ k : Fin 19, tableRow k = r := List.mem_iff_get.mp hr
  obtain ⟨-, -, hdisjoint⟩ := tableRow_bits_disjoint k
  have hcovers' : (tableRow k).covers (w ^^^ change) = true := by
    rw [TableRow.covers_iff, xor_and_of_ignored hchange hdisjoint]
    exact TableRow.covers_iff.mp hcovers
  have hoperands (m g : Word) : g &&& ~~~ (m ||| g) = 0#16 := by
    ext i hi
    cases hg : g[i] <;> simp [hg]
  apply Function.LeftInverse.injective decodeOfEncodeGivesTheInstructionBack
  rw [encode_decode hcovers', encode_decode hcovers, xor_and_of_ignored hchange (hoperands _ _)]

/-- Settles O4: the word is of the row of what it decodes to, and of no other, for no word is of two rows. -/
theorem everyWordIsOfExactlyItsTableRow : Obligations.EveryWordIsOfExactlyItsTableRow := by
  refine ⟨rfl, fun w k r hr => ?_⟩
  obtain ⟨hk, rfl⟩ := tableRow_of_getElem? hr
  rw [← row_decode_eq_iff, Fin.ext_iff]

/-- Settles O5, by running the decoder on each word. -/
theorem exampleWordsDecodeAsTheSpecSays : Obligations.ExampleWordsDecodeAsTheSpecSays := by
  unfold Obligations.ExampleWordsDecodeAsTheSpecSays
  decide

end Sys2Proof
end

section
/-! The canonical memory (log entry 30): it is unique, and of two writes to one cell the later alone counts. -/

namespace Sys2Proof.Machine

theorem Memory.cell_cons_self (a : Nat) (v : Word) (rest : Memory) : Memory.cell ((a, v) :: rest) a = v := if_pos rfl

theorem Memory.cell_cons_of_ne {a b : Nat} (h : a ≠ b) (v : Word) (rest : Memory) :
    Memory.cell ((a, v) :: rest) b = rest.cell b := if_neg h

/-- The first entry of a canonical memory differs from every memory that starts after it. -/
theorem Memory.not_cell_eq_of_lt {lo a : Nat} {v : Word} {rest m : Memory}
    (wf : Memory.wfFrom lo ((a, v) :: rest) = true) (wf1 : Memory.wfFrom (a + 1) m = true) :
    ¬ ∀ b, Memory.cell ((a, v) :: rest) b = m.cell b := by
  intro same
  obtain ⟨-, -, listed, -⟩ := Memory.wfFrom_cons.mp wf
  apply listed
  rw [← Memory.cell_cons_self a v rest, same, Memory.cell_of_lt wf1 (Nat.lt_succ_self a)]

/-- Canonical memories whose cells agree are one list, entry by entry from the lowest address. -/
theorem Memory.eq_of_cell_eq {lo : Nat} {m m1 : Memory} (wf : Memory.wfFrom lo m = true)
    (wf1 : Memory.wfFrom lo m1 = true) (same : ∀ b, m.cell b = m1.cell b) : m = m1 := by
  induction m generalizing lo m1 with
  | nil =>
    obtain _ | ⟨⟨a, v⟩, rest⟩ := m1
    · rfl
    · exact absurd (fun b => (same b).symm) (Memory.not_cell_eq_of_lt wf1 rfl)
  | cons c rest ih =>
    obtain ⟨a, v⟩ := c
    obtain ⟨hlo, hbound, hlisted, wfRest⟩ := Memory.wfFrom_cons.mp wf
    obtain _ | ⟨⟨a1, v1⟩, rest1⟩ := m1
    · exact absurd same (Memory.not_cell_eq_of_lt wf rfl)
    obtain ⟨hlo1, hbound1, hlisted1, wfRest1⟩ := Memory.wfFrom_cons.mp wf1
    obtain hlt | rfl | hgt := Nat.lt_trichotomy a a1
    · exact absurd same (Memory.not_cell_eq_of_lt wf (Memory.wfFrom_cons.mpr ⟨hlt, hbound1, hlisted1, wfRest1⟩))
    · obtain rfl : v = v1 := by rw [← Memory.cell_cons_self a v rest, same, Memory.cell_cons_self]
      have sameRest (b : Nat) : Memory.cell rest b = Memory.cell rest1 b := by
        by_cases hb : b ≤ a
        · rw [Memory.cell_of_lt wfRest (Nat.lt_succ_of_le hb), Memory.cell_of_lt wfRest1 (Nat.lt_succ_of_le hb)]
        · have hne : a ≠ b := by omega
          rw [← Memory.cell_cons_of_ne hne v rest, same, Memory.cell_cons_of_ne hne]
      rw [ih wfRest wfRest1 sameRest]
    · exact absurd (fun b => (same b).symm)
        (Memory.not_cell_eq_of_lt wf1 (Memory.wfFrom_cons.mpr ⟨hgt, hbound, hlisted, wfRest⟩))

/-- Settles O20: reads cover every cell below 65536, and a canonical memory lists none above. -/
theorem canonicalMemoriesThatReadAlikeAreEqual : Obligations.CanonicalMemoriesThatReadAlikeAreEqual := by
  intro m m1 wf wf1 same
  refine Memory.eq_of_cell_eq wf wf1 fun b => ?_
  by_cases hb : b < 65536
  · have hread := same (BitVec.ofNat 16 b)
    rwa [Memory.read, Memory.read, BitVec.toNat_ofNat, Nat.mod_eq_of_lt hb] at hread
  · rw [Memory.cell_of_ge wf (Nat.le_of_not_lt hb), Memory.cell_of_ge wf1 (Nat.le_of_not_lt hb)]

theorem Memory.write_write {m : Memory} (wf : m.wf = true) (a v w : Word) : (m.write a v).write a w = m.write a w := by
  have wf1 := Memory.write_wf wf a v
  refine canonicalMemoriesThatReadAlikeAreEqual _ _ (Memory.write_wf wf1 a w) (Memory.write_wf wf a w) fun b => ?_
  by_cases hb : b = a
  · rw [hb, Memory.read_write_self wf1, Memory.read_write_self wf]
  · rw [Memory.read_write_of_ne hb, Memory.read_write_of_ne hb, Memory.read_write_of_ne hb]

end Sys2Proof.Machine
end

section
/-! The keyboard cells (spec/20_memory.md R43 to R46, R50): the two ends of a read of KBSR, and what a store before it
comes to. -/

namespace Sys2Proof.Machine

section
variable (s : State)

theorem State.drawReady_ready : s.drawReady.1 = s.readyDraws.headD (Config.pollReady s.freePolls) := by
  obtain ⟨ready, rest, hdraws, e⟩ | ⟨hdraws, e⟩ := s.drawReady_cases <;> rw [e, hdraws] <;> rfl

theorem State.drawReady_readyDraws : s.drawReady.2.readyDraws = s.readyDraws.tail := by
  obtain ⟨ready, rest, hdraws, e⟩ | ⟨hdraws, e⟩ := s.drawReady_cases <;> rw [e]
  · rw [hdraws, List.tail_cons]
  · rw [hdraws, List.tail_nil]

theorem State.drawReady_freePolls :
    s.drawReady.2.freePolls = if s.readyDraws = [] then s.freePolls + 1 else s.freePolls := by
  obtain ⟨ready, rest, hdraws, e⟩ | ⟨hdraws, e⟩ := s.drawReady_cases <;> rw [e]
  · rw [if_neg (by rw [hdraws]; exact List.cons_ne_nil _ _)]
  · rw [if_pos hdraws]

/-- A poll that finds a byte sets both keyboard cells. -/
theorem State.memRead_kbsr_of_ready (wf : s.mem.wf = true) {b : Byte} {rest : List Byte}
    (hready : s.readyDraws.headD (Config.pollReady s.freePolls) = true) (hinput : s.input = b :: rest) :
    s.memRead kbsrAddr = (0x8000#16,
      (({ s.drawReady.2 with input := rest } : State).memWrite kbsrAddr 0x8000#16).memWrite kbdrAddr (zext8 b)) := by
  have hpoll : s.consolePoll = (some b, { s.drawReady.2 with input := rest }) := by
    obtain ⟨b1, rest1, -, hi, e⟩ | ⟨hnone | hnone, -⟩ := s.consolePoll_cases
    · obtain ⟨rfl, rfl⟩ := List.cons.inj (hinput.symm.trans hi)
      exact e
    · cases hready.symm.trans (s.drawReady_ready.symm.trans hnone)
    · cases hinput.symm.trans hnone
  have wf1 : s.drawReady.2.mem.wf = true := by rwa [s.drawReady_frame.2]
  rw [State.memRead, if_pos rfl, State.refreshKeyboard, hpoll]
  refine Prod.ext ?_ rfl
  exact (Memory.read_write_of_ne kbdrAddr_ne_kbsrAddr.symm _ _).trans (Memory.read_write_self wf1 _ _)

/-- A poll that finds none clears KBSR alone. -/
theorem State.memRead_kbsr_of_not_ready (wf : s.mem.wf = true)
    (hnone : s.readyDraws.headD (Config.pollReady s.freePolls) = false ∨ s.input = []) :
    s.memRead kbsrAddr = (0x0000#16, s.drawReady.2.memWrite kbsrAddr 0x0000#16) := by
  have hpoll : s.consolePoll = (none, s.drawReady.2) := by
    obtain ⟨b, rest, hready, hi, -⟩ | ⟨-, e⟩ := s.consolePoll_cases
    · obtain hnot | hempty := hnone
      · cases hnot.symm.trans (s.drawReady_ready.symm.trans hready)
      · cases hempty.symm.trans hi
    · exact e
  have wf1 : s.drawReady.2.mem.wf = true := by rwa [s.drawReady_frame.2]
  rw [State.memRead, if_pos rfl, State.refreshKeyboard, hpoll]
  exact Prod.ext (Memory.read_write_self wf1 _ _) rfl

end

/-- Settles O18, by the two ends of a poll. -/
theorem readOfKeyboardStatusPollsTheConsole : Obligations.ReadOfKeyboardStatusPollsTheConsole := by
  refine ⟨rfl, rfl, fun _ _ => rfl, fun s wf => ⟨fun b rest hready hinput => ?_, fun hnone => ?_⟩⟩
  all_goals
    have hframe := s.sameButKeyboard_memRead kbsrAddr
    have wf1 : s.drawReady.2.mem.wf = true := by rwa [s.drawReady_frame.2]
  · rw [s.memRead_kbsr_of_ready wf hready hinput] at hframe ⊢
    refine ⟨_, rfl, ?_, Memory.read_write_self (Memory.write_wf wf1 _ _) _ _, rfl, hframe, s.drawReady_readyDraws,
      s.drawReady_freePolls⟩
    exact (Memory.read_write_of_ne kbdrAddr_ne_kbsrAddr.symm _ _).trans (Memory.read_write_self wf1 _ _)
  · rw [s.memRead_kbsr_of_not_ready wf hnone] at hframe ⊢
    refine ⟨_, rfl, Memory.read_write_self wf1 _ _, ?_, s.drawReady_input, hframe, s.drawReady_readyDraws,
      s.drawReady_freePolls⟩
    rw [State.memWrite_mem, Memory.read_write_of_ne kbdrAddr_ne_kbsrAddr, s.drawReady_frame.2]

theorem State.stores_memWrite {s : State} (wf : s.mem.wf = true) (a v : Word) : Stores a v s (s.memWrite a v) :=
  ⟨Memory.read_write_self wf a v, fun _ hb => Memory.read_write_of_ne hb s.mem v, fun _ => rfl, rfl, rfl,
    ⟨rfl, rfl, rfl⟩, ⟨rfl, rfl, rfl⟩, ⟨rfl, rfl⟩⟩

theorem State.drawReady_memWrite (s : State) (a v : Word) :
    (s.memWrite a v).drawReady = (s.drawReady.1, s.drawReady.2.memWrite a v) := by
  unfold State.drawReady
  rw [State.memWrite_readyDraws]
  split <;> rfl

theorem State.memWrite_memWrite {s : State} (wf : s.mem.wf = true) (a v w : Word) :
    (s.memWrite a v).memWrite a w = s.memWrite a w := by
  rw [State.memWrite, State.memWrite, Memory.write_write wf]
  rfl

/-- Settles O19: a poll does not look at memory, and its own write to KBSR covers the stored value. -/
theorem writeIsAPlainStoreAndKeyboardStatusForgetsIt : Obligations.WriteIsAPlainStoreAndKeyboardStatusForgetsIt := by
  intro s a v wf
  refine ⟨State.stores_memWrite wf a v, ?_⟩
  have wf1 : s.drawReady.2.mem.wf = true := by rwa [s.drawReady_frame.2]
  have wfStored := Memory.write_wf wf kbsrAddr v
  by_cases hnone : s.readyDraws.headD (Config.pollReady s.freePolls) = false ∨ s.input = []
  · rw [State.memRead_kbsr_of_not_ready (s.memWrite kbsrAddr v) wfStored hnone,
      s.memRead_kbsr_of_not_ready wf hnone, State.drawReady_memWrite, State.memWrite_memWrite wf1]
  · obtain ⟨hready, hinput⟩ := not_or.mp hnone
    obtain ⟨b, rest, hinput⟩ := List.exists_cons_of_ne_nil hinput
    have hready := Bool.eq_true_of_not_eq_false hready
    rw [State.memRead_kbsr_of_ready (s.memWrite kbsrAddr v) wfStored hready hinput,
      s.memRead_kbsr_of_ready wf hready hinput, State.drawReady_memWrite]
    have hcover := State.memWrite_memWrite (s := { s.drawReady.2 with input := rest }) wf1 kbsrAddr v 0x8000#16
    exact congrArg (fun u : State => (0x8000#16, u.memWrite kbdrAddr (zext8 b))) hcover

end Sys2Proof.Machine
end

section
/-! The stores (spec/42_load_store.md R144 to R146) and a store into the instruction stream (spec/20_memory.md R53). -/

namespace Sys2Proof.Machine

section
variable (sr base : Reg) (s : State)

theorem exec_st (off : BitVec 9) : exec (.st sr off) s = .next (s.memWrite (s.pcRelative off) (s.reg sr)) := rfl

theorem exec_str (off : BitVec 6) :
    exec (.str sr base off) s = .next (s.memWrite (s.baseOffset base off) (s.reg sr)) := rfl

theorem exec_sti (off : BitVec 6) : exec (.sti sr base off) s =
    .next ((s.memRead (s.baseOffset base off)).2.memWrite (s.memRead (s.baseOffset base off)).1 (s.reg sr)) := rfl

end

/-- Settles O24: each of the two is one `MemWrite`. -/
theorem storeWritesTheOneCellAtItsAddress : Obligations.StoreWritesTheOneCellAtItsAddress :=
  fun sr base off9 off6 s wf => ⟨⟨_, exec_st sr s off9, State.stores_memWrite wf _ _⟩,
    ⟨_, exec_str sr base s off6, State.stores_memWrite wf _ _⟩⟩

/-- Settles O25: the store is made in the state the pointer's read leaves, so that the frame is that of the read with the
one cell written; with the pointer not at KBSR the read is plain. -/
theorem storeIndirectWritesTheOneCellPointedTo : Obligations.StoreIndirectWritesTheOneCellPointedTo := by
  intro sr base off s wf
  rcases hread : s.memRead (s.baseOffset base off) with ⟨p, s1⟩
  have hexec : exec (.sti sr base off) s = .next (s1.memWrite p (s.reg sr)) := by rw [exec_sti, hread]
  have hpointer := s.sameButKeyboard_memRead (s.baseOffset base off)
  have wf1 := s.memRead_wf (s.baseOffset base off) wf
  rw [hread] at hpointer wf1
  obtain ⟨hregs, hpc, hcond, hmem, houtput, hcontrol⟩ := hpointer
  refine ⟨s1.memWrite p (s.reg sr), p, s1, hexec, hread, State.stores_memWrite wf1 p _, hregs, hpc, hcond, houtput,
    hcontrol, fun a hp hkbsr hkbdr => ?_, fun hea => ?_⟩
  · rw [State.memWrite_mem, Memory.read_write_of_ne hp]
    exact hmem a hkbsr hkbdr
  · obtain ⟨rfl, rfl⟩ : s.mem.read (s.baseOffset base off) = p ∧ s = s1 :=
      Prod.mk.inj ((s.memRead_of_ne_kbsrAddr hea).symm.trans hread)
    exact State.stores_memWrite wf _ _

/-- A running core whose next address is not KBSR's fetches the plain word there, changing `ir` and `pc` alone. -/
theorem step_of_plain_fetch {s : State} (hrun : s.run = .running) (hpc : s.pc ≠ kbsrAddr) :
    step s = exec (decode (s.mem.read s.pc)) { s with ir := s.mem.read s.pc, pc := s.pc + 1 } := by
  rw [step_of_running hrun, State.fetch_of_memRead (s.memRead_of_ne_kbsrAddr hpc)]

/-- A word stored at `pc` is fetched next. -/
theorem step_memWrite_pc {s : State} (wf : s.mem.wf = true) (hrun : s.run = .running) (hpc : s.pc ≠ kbsrAddr)
    (v : Word) :
    step (s.memWrite s.pc v) = exec (decode v) { s.memWrite s.pc v with ir := v, pc := s.pc + 1 } := by
  have hread : (s.memWrite s.pc v).mem.read (s.memWrite s.pc v).pc = v := Memory.read_write_self wf s.pc v
  rw [step_of_plain_fetch (s := s.memWrite s.pc v) hrun hpc, hread]
  rfl

/-- Settles O26: each of the three stores ends with a `MemWrite` at `pc`; before STI's a pointer was read, which leaves
`pc` and the run state alone. -/
theorem storedWordIsFetchedByTheNextStep : Obligations.StoredWordIsFetchedByTheNextStep := by
  rintro i sr s t wf hrun hpc (⟨off, rfl⟩ | ⟨base, off, rfl⟩ | ⟨base, off, rfl⟩) haddr hexec
  · obtain rfl := Host.Outcome.next.inj hexec
    rw [show s.pcRelative off = s.pc from Option.some.inj haddr]
    exact step_memWrite_pc wf hrun hpc _
  · obtain rfl := Host.Outcome.next.inj hexec
    rw [show s.baseOffset base off = s.pc from Option.some.inj haddr]
    exact step_memWrite_pc wf hrun hpc _
  · obtain rfl := Host.Outcome.next.inj hexec
    have hpc1 := s.memRead_pc (s.baseOffset base off)
    rw [show (s.memRead (s.baseOffset base off)).1 = s.pc from Option.some.inj haddr, ← hpc1]
    exact step_memWrite_pc (s.memRead_wf _ wf) ((s.memRead_run _).trans hrun) (hpc1 ▸ hpc) _

end Sys2Proof.Machine
end

section
/-! The general registers (spec/10_state.md R20) and JSRR's link (spec/41_control.md R123). -/

namespace Sys2Proof.Machine

/-- Settles O6, by the rules of `setReg`. -/
theorem registerWriteIsReadBackAndChangesNothingElse : Obligations.RegisterWriteIsReadBackAndChangesNothingElse :=
  fun s r v => ⟨s.reg_setReg_self r v, s.otherRegsSame_setReg r v, rfl⟩

theorem exec_jsrr (base : Reg) (s : State) : exec (.jsrr base) s =
    .next ((s.setReg linkReg s.pc).setPc ((s.setReg linkReg s.pc).reg base)) := rfl

/-- Settles O16: the base is read from the registers the link has been written to. -/
theorem jsrrLinksAndThenReadsTheBase : Obligations.JsrrLinksAndThenReadsTheBase :=
  fun base s => ⟨_, exec_jsrr base s, s.reg_setReg_self linkReg s.pc, s.otherRegsSame_setReg linkReg s.pc,
    s.reg_setReg linkReg base s.pc, rfl⟩

end Sys2Proof.Machine
end

section
/-! The routines with no loop (spec/43_trap.md R173, R174, R177, R181) and the opcodes with no implementation (R182,
R183): GETC and IN complete with a byte, or block without one, and a blocked one is completed by a later step. -/

namespace Sys2Proof.Machine

section
variable {s : State} {b : Byte} {rest : List Byte}

theorem State.awaitByte_of_input (hinput : s.input = b :: rest) (w : Waiting) :
    s.awaitByte w = ({ s with input := rest } : State).finishRead w b := by
  obtain ⟨b1, rest1, hi, e⟩ | ⟨hi, -⟩ := s.awaitByte_cases w
  · obtain ⟨rfl, rfl⟩ := List.cons.inj (hinput.symm.trans hi)
    exact e
  · cases hinput.symm.trans hi

theorem State.awaitByte_of_empty (hinput : s.input = []) (w : Waiting) :
    s.awaitByte w = { s with run := .blocked w } := by
  obtain ⟨b, rest, hi, -⟩ | ⟨-, e⟩ := s.awaitByte_cases w
  · cases hinput.symm.trans hi
  · exact e

theorem exec_getc_of_input (hinput : s.input = b :: rest) :
    exec (.trap 0x20#8) s = .next { s.setReg argReg (zext8 b) with input := rest } :=
  congrArg Host.Outcome.next (State.awaitByte_of_input hinput .getc)

theorem exec_in_of_input (hinput : s.input = b :: rest) :
    exec (.trap 0x23#8) s = .next { s.setReg argReg (zext8 b) with
      input := rest, output := s.output ++ Config.inPrompt ++ [b] } :=
  congrArg Host.Outcome.next (State.awaitByte_of_input (s := s.consoleWriteAll Config.inPrompt) hinput .inEcho)

theorem exec_getc_of_empty (hinput : s.input = []) :
    exec (.trap 0x20#8) s = .next { s with run := .blocked .getc } :=
  congrArg Host.Outcome.next (State.awaitByte_of_empty hinput .getc)

theorem exec_in_of_empty (hinput : s.input = []) :
    exec (.trap 0x23#8) s = .next { s with run := .blocked .inEcho, output := s.output ++ Config.inPrompt } :=
  congrArg Host.Outcome.next (State.awaitByte_of_empty (s := s.consoleWriteAll Config.inPrompt) hinput .inEcho)

/-- The `blocked` equation of `step`. -/
theorem step_of_blocked {w : Waiting} (hrun : s.run = .blocked w) : step s = .next (s.resumeRead w) := by
  unfold step
  rw [hrun]

theorem State.resumeRead_of_input (hinput : s.input = b :: rest) (w : Waiting) :
    s.resumeRead w = { ({ s with input := rest } : State).finishRead w b with run := .running } := by
  obtain ⟨b1, rest1, hi, e⟩ | ⟨hi, -⟩ := s.resumeRead_cases w
  · obtain ⟨rfl, rfl⟩ := List.cons.inj (hinput.symm.trans hi)
    exact e
  · cases hinput.symm.trans hi

theorem step_of_blocked_getc (hrun : s.run = .blocked .getc) (hinput : s.input = b :: rest) :
    step s = .next { s.setReg argReg (zext8 b) with input := rest, run := .running } := by
  rw [step_of_blocked hrun, State.resumeRead_of_input hinput]
  rfl

theorem step_of_blocked_in (hrun : s.run = .blocked .inEcho) (hinput : s.input = b :: rest) :
    step s = .next { s.setReg argReg (zext8 b) with
      input := rest, run := .running, output := s.output ++ [b] } := by
  rw [step_of_blocked hrun, State.resumeRead_of_input hinput]
  rfl

end

/-- Settles O28, by the two routines' equations on a nonempty input. -/
theorem getcAndInTakeTheNextInputByte : Obligations.GetcAndInTakeTheNextInputByte :=
  fun _ _ _ hinput => ⟨exec_getc_of_input hinput, exec_in_of_input hinput⟩

/-- Settles O29, by the two routines' equations on an empty input and that of a blocked step. -/
theorem getcAndInBlockWithoutInputAndWait : Obligations.GetcAndInBlockWithoutInputAndWait := by
  refine ⟨fun s hinput => ⟨exec_getc_of_empty hinput, exec_in_of_empty hinput⟩, fun s w hrun hinput => ?_⟩
  obtain ⟨b, rest, hi, -⟩ | ⟨-, e⟩ := s.resumeRead_cases w
  · cases hinput.symm.trans hi
  · rw [step_of_blocked hrun, e]

/-- Settles O30: the blocked state of O29 with one byte supplied, completed, is O28's state with that byte at hand. -/
theorem waitingForAByteDoesNotChangeWhatIsRead : Obligations.WaitingForAByteDoesNotChangeWhatIsRead := by
  refine ⟨fun v s t b hv hrun hinput hexec => ?_, fun _ _ => rfl,
    fun s b rest hinput => ⟨fun hrun => step_of_blocked_getc hrun hinput, fun hrun => step_of_blocked_in hrun hinput⟩⟩
  have hbyte : (s.supply b).input = b :: [] := congrArg (· ++ [b]) hinput
  obtain rfl | rfl := hv
  · obtain rfl := Host.Outcome.next.inj ((exec_getc_of_empty hinput).symm.trans hexec)
    have hstep := step_of_blocked_getc (s := ({ s with run := .blocked .getc } : State).supply b) rfl hbyte
    rw [hstep, exec_getc_of_input hbyte, ← hrun]
    rfl
  · obtain rfl := Host.Outcome.next.inj ((exec_in_of_empty hinput).symm.trans hexec)
    have hstep := step_of_blocked_in (s := State.supply
      { s with run := .blocked .inEcho, output := s.output ++ Config.inPrompt } b) rfl hbyte
    rw [hstep, exec_in_of_input hbyte, ← hrun]
    rfl

theorem exec_halt (s : State) : exec (.trap 0x25#8) s = .next (s.consoleFlush.endRun .halted) := rfl

/-- Settles O37: HALT is a flush and the end of the run. -/
theorem haltFlushesAndHalts : Obligations.HaltFlushesAndHalts := exec_halt

/-- Settles O38: a vector outside 0x20 to 0x25 is none of the dispatcher's six. -/
theorem unknownTrapVectorDoesNothing : Obligations.UnknownTrapVectorDoesNothing := by
  intro v s hv
  obtain ⟨rfl, -⟩ | ⟨rfl, -⟩ | ⟨rfl, -⟩ | ⟨rfl, -⟩ | ⟨rfl, -⟩ | ⟨rfl, -⟩ | ⟨-, e⟩ := execTrap_cases v s
  case inr.inr.inr.inr.inr.inr => exact e
  all_goals exact absurd hv (by decide)

theorem exec_res (s : State) :
    exec .res s = .next (s.endRun (.fatal { cause := .res, instr := s.ir, pc := s.pc })) := rfl

theorem exec_rti (s : State) :
    exec .rti s = .next (s.endRun (.fatal { cause := .rti, instr := s.ir, pc := s.pc })) := rfl

theorem fatalExitCode_ne_zero : Config.fatalExitCode ≠ 0 := by
  unfold Config.fatalExitCode
  split
  · exact one_ne_zero
  · assumption

/-- Settles O39: each of the two is one `raiseFatal`, and the exit code of a fatal end is free but for not being 0. -/
theorem resAndRtiRaiseFatal : Obligations.ResAndRtiRaiseFatal :=
  ⟨fun s => ⟨_, exec_res s, rfl, rfl, rfl⟩, fun s => ⟨_, exec_rti s, rfl, rfl, rfl⟩,
    fun _ => ⟨_, rfl, fatalExitCode_ne_zero⟩⟩

end Sys2Proof.Machine
end

section
/-! What an instruction can do, said once: it completes, and its end is one of ten, each with what it may touch. -/

namespace Sys2Proof.Machine

/-- What memory reads and string routines may touch: the output grows, the input is consumed from the front, the keyboard
cells are refreshed, and the rest of the state stays. -/
structure ConsoleFrame (s t : State) : Prop extends StringFrame s t where
  input : t.input <:+ s.input

theorem ConsoleFrame.refl (s : State) : ConsoleFrame s s := ⟨StringFrame.refl s, List.suffix_rfl⟩

theorem ConsoleFrame.trans {s t u : State} (h : ConsoleFrame s t) (k : ConsoleFrame t u) : ConsoleFrame s u :=
  ⟨h.toStringFrame.trans k.toStringFrame, k.input.trans h.input⟩

theorem State.consolePoll_input (s : State) : s.consolePoll.2.input <:+ s.input := by
  obtain ⟨b, rest, -, hinput, e⟩ | ⟨-, e⟩ := s.consolePoll_cases <;> rw [e]
  · rw [hinput]
    exact List.suffix_cons b rest
  · rw [s.drawReady_input]

theorem State.memRead_input (s : State) (a : Word) : (s.memRead a).2.input <:+ s.input := by
  obtain ⟨-, e⟩ | ⟨-, e⟩ := s.memRead_cases a <;> rw [e]
  obtain ⟨b, -, e⟩ | ⟨-, e⟩ := s.refreshKeyboard_cases <;> rw [e] <;> exact s.consolePoll_input

theorem ConsoleFrame.memRead (s : State) (a : Word) : ConsoleFrame s (s.memRead a).2 :=
  ⟨StringFrame.memRead s a, s.memRead_input a⟩

theorem ConsoleFrame.consoleWriteAll (s : State) (bs : List Byte) : ConsoleFrame s (s.consoleWriteAll bs) :=
  ⟨StringFrame.consoleWriteAll s bs, List.suffix_rfl⟩

theorem State.stringLoop_input (form : StringForm) (n : Nat) (a : Word) (s : State) :
    (State.stringLoop form n a s).input <:+ s.input := by
  induction n generalizing a s with
  | zero => exact List.suffix_rfl
  | succ n ih =>
    unfold State.stringLoop
    split
    · exact s.memRead_input a
    · exact (ih _ _).trans (s.memRead_input a)

theorem ConsoleFrame.printString (s : State) (form : StringForm) (a : Word) : ConsoleFrame s (s.printString form a) :=
  ⟨s.printString_frame form a, State.stringLoop_input form s.readsAtHand a s⟩

theorem ConsoleFrame.output_prefix {s t : State} (h : ConsoleFrame s t) : s.output <+: t.output := by
  obtain ⟨bs, hbs⟩ := h.output
  exact ⟨bs, hbs.symm⟩

/-- The ends of an instruction run from `s`, the state after the fetch. -/
inductive Effect (i : Instr) (s : State) : State → Prop
  /-- A flag-setting instruction defines its DR, after the reads of a load. -/
  | define {dr : Reg} {s1 : State} (dest : i.flagDest = some dr) (reads : ConsoleFrame s s1) (v : Word) :
      Effect i s (s1.define dr v)
  /-- A store writes the cell at its address, after STI's read. -/
  | store {a : Word} {s1 : State} (addr : i.storeAddr s = some a) (reads : ConsoleFrame s s1) (v : Word) :
      Effect i s (s1.memWrite a v)
  /-- BR and JMP set `pc`, a BR that is not taken to what it was. -/
  | jump (moves : i.movesPc = true) (p : Word) : Effect i s (s.setPc p)
  /-- JSR and JSRR write R7 and set `pc`. -/
  | link (moves : i.movesPc = true) (written : i.regWritten = some linkReg) (v p : Word) :
      Effect i s ((s.setReg linkReg v).setPc p)
  /-- RES and RTI end the run as Fatal. -/
  | fatal {cause : FatalCause} (opcode : i.opcode = cause.code) :
      Effect i s (s.endRun (.fatal { cause := cause, instr := s.ir, pc := s.pc }))
  /-- OUT writes a byte, and an unknown vector none. -/
  | write (calls : ∃ v, i = .trap v) (bs : List Byte) : Effect i s (s.consoleWriteAll bs)
  /-- PUTS and PUTSP print the string at R0. -/
  | string {form : StringForm} (calls : stringOf i = some form) : Effect i s (s.printString form (s.reg argReg))
  /-- GETC and IN complete with the next byte. -/
  | read {b : Byte} {rest : List Byte} (calls : i = .trap 0x20#8 ∨ i = .trap 0x23#8) (input : s.input = b :: rest)
      (bs : List Byte) : Effect i s { s.setReg argReg (zext8 b) with input := rest, output := s.output ++ bs }
  /-- GETC and IN block without a byte. -/
  | block (calls : i = .trap 0x20#8 ∨ i = .trap 0x23#8) (input : s.input = []) (w : Waiting) (bs : List Byte) :
      Effect i s { s with run := .blocked w, output := s.output ++ bs }
  /-- HALT flushes and ends the run as Halted. -/
  | halt (calls : i = .trap 0x25#8) : Effect i s (s.consoleFlush.endRun .halted)

theorem exec_trap_effect (v : Byte) (s : State) : ∃ t, exec (.trap v) s = .next t ∧ Effect (.trap v) s t := by
  obtain ⟨rfl, -⟩ | ⟨rfl, e⟩ | ⟨rfl, e⟩ | ⟨rfl, -⟩ | ⟨rfl, e⟩ | ⟨rfl, e⟩ | ⟨-, e⟩ := execTrap_cases v s
  · cases hinput : s.input with
    | nil =>
      refine ⟨_, exec_getc_of_empty hinput, ?_⟩
      simpa using Effect.block (i := .trap 0x20#8) (.inl rfl) hinput .getc []
    | cons b rest =>
      refine ⟨_, exec_getc_of_input hinput, ?_⟩
      simpa using Effect.read (.inl rfl) hinput []
  · exact ⟨_, e, .write ⟨_, rfl⟩ [_]⟩
  · exact ⟨_, e, .string rfl⟩
  · cases hinput : s.input with
    | nil => exact ⟨_, exec_in_of_empty hinput, .block (.inr rfl) hinput .inEcho Config.inPrompt⟩
    | cons b rest =>
      refine ⟨_, exec_in_of_input hinput, ?_⟩
      rw [List.append_assoc]
      exact .read (.inr rfl) hinput (Config.inPrompt ++ [b])
  · exact ⟨_, e, .string rfl⟩
  · exact ⟨_, e, .halt rfl⟩
  · refine ⟨_, e, ?_⟩
    simpa only [State.consoleWriteAll_nil] using Effect.write (i := .trap v) (s := s) ⟨v, rfl⟩ []

theorem exec_br_effect (nzp : BitVec 3) (off : BitVec 9) (s : State) :
    ∃ t, exec (.br nzp off) s = .next t ∧ Effect (.br nzp off) s t := by
  by_cases htaken : branchTaken nzp s.cond = true
  · exact ⟨_, exec_br_taken off htaken, .jump rfl _⟩
  · exact ⟨_, exec_br_not_taken off htaken, .jump rfl s.pc⟩

/-- Every instruction completes, from every state. -/
theorem exec_effect (i : Instr) (s : State) : ∃ t, exec i s = .next t ∧ Effect i s t := by
  have hnone := ConsoleFrame.refl s
  have hread := ConsoleFrame.memRead s
  cases i with
  | br nzp off => exact exec_br_effect nzp off s
  | addReg dr sr1 sr2 => exact ⟨_, exec_addReg dr s sr1 sr2, .define rfl hnone _⟩
  | addImm dr sr1 imm5 => exact ⟨_, exec_addImm dr s sr1 imm5, .define rfl hnone _⟩
  | ld dr off => exact ⟨_, exec_ld dr s off, .define rfl (hread _) _⟩
  | st sr off => exact ⟨_, exec_st sr s off, .store rfl hnone _⟩
  | jsr off => exact ⟨_, exec_jsr off s, .link rfl rfl _ _⟩
  | jsrr base => exact ⟨_, exec_jsrr base s, .link rfl rfl _ _⟩
  | andReg dr sr1 sr2 => exact ⟨_, exec_andReg dr s sr1 sr2, .define rfl hnone _⟩
  | andImm dr sr1 imm5 => exact ⟨_, exec_andImm dr s sr1 imm5, .define rfl hnone _⟩
  | ldr dr base off => exact ⟨_, exec_ldr dr s base off, .define rfl (hread _) _⟩
  | str sr base off => exact ⟨_, exec_str sr base s off, .store rfl hnone _⟩
  | rti => exact ⟨_, exec_rti s, .fatal rfl⟩
  | not dr sr => exact ⟨_, exec_not dr s sr, .define rfl hnone _⟩
  | ldi dr off => exact ⟨_, exec_ldi dr s off, .define rfl ((hread _).trans (ConsoleFrame.memRead _ _)) _⟩
  | sti sr base off => exact ⟨_, exec_sti sr base s off, .store rfl (hread _) _⟩
  | jmp base => exact ⟨_, exec_jmp base s, .jump rfl _⟩
  | res => exact ⟨_, exec_res s, .fatal rfl⟩
  | lea dr off => exact ⟨_, exec_lea dr s off, .define rfl hnone _⟩
  | trap v => exact exec_trap_effect v s

theorem effect_of_exec {i : Instr} {s t : State} (h : exec i s = .next t) : Effect i s t := by
  obtain ⟨u, hu, heffect⟩ := exec_effect i s
  obtain rfl := Host.Outcome.next.inj (hu.symm.trans h)
  exact heffect

end Sys2Proof.Machine
end

section
/-! Frames of the whole machine (spec/10_state.md R21 to R28, spec/20_memory.md R47, R50, spec/43_trap.md R171, R172): each
is a property of the ten ends of an instruction. -/

namespace Sys2Proof.Machine

/-! ### What the instruction classes have to do with each other -/

theorem regWritten_of_flagDest {i : Instr} {dr : Reg} (h : i.flagDest = some dr) : i.regWritten = some dr := by
  cases i <;> cases h <;> rfl

theorem regWritten_of_read {i : Instr} (h : i = .trap 0x20#8 ∨ i = .trap 0x23#8) : i.regWritten = some argReg := by
  obtain rfl | rfl := h <;> rfl

theorem stringOf_eq_some {i : Instr} {form : StringForm} (h : stringOf i = some form) :
    (i = .trap 0x22#8 ∧ form = .puts) ∨ (i = .trap 0x24#8 ∧ form = .putsp) := by
  unfold stringOf at h
  split at h
  · exact .inl ⟨by assumption, (Option.some.inj h).symm⟩
  · split at h
    · exact .inr ⟨by assumption, (Option.some.inj h).symm⟩
    · cases h

theorem ne_of_ne_some {α : Type} {o : Option α} {a b : α} (ha : o ≠ some a) (hb : o = some b) : a ≠ b := by
  rintro rfl
  exact ha hb

/-! ### What each end leaves alone -/

section
variable {i : Instr} {s t : State}

theorem Effect.reg_eq (h : Effect i s t) {r : Reg} (hr : i.regWritten ≠ some r) : t.reg r = s.reg r := by
  cases h with
  | define dest reads v =>
    rw [State.reg_define, if_neg (ne_of_ne_some hr (regWritten_of_flagDest dest))]
    exact State.reg_congr reads.regs r
  | store addr reads v => exact State.reg_congr reads.regs r
  | jump moves p => rfl
  | link moves written v p => exact s.reg_setReg_of_ne (ne_of_ne_some hr written) v
  | fatal opcode => rfl
  | write calls bs => rfl
  | string calls => exact State.reg_congr (s.printString_frame _ _).regs r
  | read calls input bs => exact s.reg_setReg_of_ne (ne_of_ne_some hr (regWritten_of_read calls)) _
  | block calls input w bs => rfl
  | halt calls => rfl

theorem Effect.mem_read_eq (h : Effect i s t) {a : Word} (ha : i.storeAddr s ≠ some a) (hkbsr : a ≠ kbsrAddr)
    (hkbdr : a ≠ kbdrAddr) : t.mem.read a = s.mem.read a := by
  cases h with
  | define dest reads v => exact reads.mem a hkbsr hkbdr
  | store addr reads v => exact (Memory.read_write_of_ne (ne_of_ne_some ha addr) _ v).trans (reads.mem a hkbsr hkbdr)
  | jump moves p => rfl
  | link moves written v p => rfl
  | fatal opcode => rfl
  | write calls bs => rfl
  | string calls => exact (s.printString_frame _ _).mem a hkbsr hkbdr
  | read calls input bs => rfl
  | block calls input w bs => rfl
  | halt calls => rfl

theorem Effect.pc_eq (h : Effect i s t) (hpc : i.movesPc = false) : t.pc = s.pc := by
  cases h with
  | define dest reads v => exact reads.pc
  | store addr reads v => exact reads.pc
  | jump moves p => cases hpc.symm.trans moves
  | link moves written v p => cases hpc.symm.trans moves
  | fatal opcode => rfl
  | write calls bs => rfl
  | string calls => exact (s.printString_frame _ _).pc
  | read calls input bs => rfl
  | block calls input w bs => rfl
  | halt calls => rfl

theorem Effect.cond_eq (h : Effect i s t) (hflag : i.flagDest = none) : t.cond = s.cond := by
  cases h with
  | define dest reads v => cases hflag.symm.trans dest
  | store addr reads v => exact reads.cond
  | jump moves p => rfl
  | link moves written v p => rfl
  | fatal opcode => rfl
  | write calls bs => rfl
  | string calls => exact (s.printString_frame _ _).cond
  | read calls input bs => rfl
  | block calls input w bs => rfl
  | halt calls => rfl

theorem Effect.ir_eq (h : Effect i s t) : t.ir = s.ir := by
  cases h with
  | define dest reads v => exact reads.ir
  | store addr reads v => exact reads.ir
  | jump moves p => rfl
  | link moves written v p => rfl
  | fatal opcode => rfl
  | write calls bs => rfl
  | string calls => exact (s.printString_frame _ _).ir
  | read calls input bs => rfl
  | block calls input w bs => rfl
  | halt calls => rfl

/-- From `s` to `t` the output only grew, and the input was only consumed from the front. -/
def ConsoleAdvances (s t : State) : Prop := s.output <+: t.output ∧ t.input <:+ s.input

theorem ConsoleFrame.advances (h : ConsoleFrame s t) : ConsoleAdvances s t := ⟨h.output_prefix, h.input⟩

theorem ConsoleAdvances.trans {u : State} (h : ConsoleAdvances s t) (k : ConsoleAdvances t u) : ConsoleAdvances s u :=
  ⟨h.1.trans k.1, k.2.trans h.2⟩

theorem Effect.console_advances (h : Effect i s t) : ConsoleAdvances s t := by
  cases h with
  | define dest reads v => exact reads.advances
  | store addr reads v => exact reads.advances
  | jump moves p => exact ⟨List.prefix_rfl, List.suffix_rfl⟩
  | link moves written v p => exact ⟨List.prefix_rfl, List.suffix_rfl⟩
  | fatal opcode => exact ⟨List.prefix_rfl, List.suffix_rfl⟩
  | write calls bs => exact ⟨List.prefix_append _ _, List.suffix_rfl⟩
  | string calls => exact (ConsoleFrame.printString s _ _).advances
  | @read b rest calls input bs => exact ⟨List.prefix_append _ _, input ▸ List.suffix_cons b rest⟩
  | block calls input w bs => exact ⟨List.prefix_append _ _, List.suffix_rfl⟩
  | halt calls => exact ⟨List.prefix_rfl, List.suffix_rfl⟩

/-- Of the routines PUTS and PUTSP alone touch memory. -/
theorem Effect.mem_eq_of_trap {v : Byte} (h : Effect (.trap v) s t) (hputs : v ≠ 0x22#8) (hputsp : v ≠ 0x24#8) :
    t.mem = s.mem := by
  cases h with
  | define dest reads v => cases dest
  | store addr reads v => cases addr
  | string calls =>
    obtain ⟨e, -⟩ | ⟨e, -⟩ := stringOf_eq_some calls
    · exact absurd (Instr.trap.inj e) hputs
    · exact absurd (Instr.trap.inj e) hputsp
  | jump moves p => rfl
  | link moves written v p => rfl
  | fatal opcode => rfl
  | write calls bs => rfl
  | read calls input bs => rfl
  | block calls input w bs => rfl
  | halt calls => rfl

end

/-! ### The statements -/

/-- Settles O44, by the frame of the registers over the ten ends. -/
theorem registersAreWrittenOnlyAsListed : Obligations.RegistersAreWrittenOnlyAsListed := by
  intro i s r hr
  obtain ⟨t, hexec, heffect⟩ := exec_effect i s
  exact ⟨t, hexec, heffect.reg_eq hr⟩

/-- Settles O45, by the frame of the memory over the ten ends. -/
theorem memoryIsWrittenByStoresAlone : Obligations.MemoryIsWrittenByStoresAlone := by
  intro i s a ha hkbsr hkbdr
  obtain ⟨t, hexec, heffect⟩ := exec_effect i s
  exact ⟨t, hexec, heffect.mem_read_eq ha hkbsr hkbdr⟩

/-- Settles O43: the fetch increments `pc`, and the ends that move it are those of the four control transfers. -/
theorem pcIsMovedByControlTransferAlone : Obligations.PcIsMovedByControlTransferAlone := by
  intro s t hrun hstep hpc
  rw [step_of_running hrun] at hstep
  exact (effect_of_exec hstep).pc_eq hpc

theorem regWritten_trap (v : Byte) :
    (Instr.trap v).regWritten = if v = 0x20#8 ∨ v = 0x23#8 then some 0 else none := rfl

theorem regWritten_trap_ne {v : Byte} {r : Reg} (h : r ≠ 0 ∨ v ≠ 0x20#8 ∧ v ≠ 0x23#8) :
    (Instr.trap v).regWritten ≠ some r := by
  rw [regWritten_trap]
  by_cases hv : v = 0x20#8 ∨ v = 0x23#8
  · obtain hr | hnot := h
    · rw [if_pos hv, Ne, Option.some_inj]
      exact hr.symm
    · exact absurd hv (not_or.mpr hnot)
  · rw [if_neg hv]
    exact (Option.some_ne_none r).symm

/-- Settles O27: a TRAP has one of the ten ends, and the frames of those say the rest. -/
theorem trapWithAnyVectorKeepsTheRestOfTheState : Obligations.TrapWithAnyVectorKeepsTheRestOfTheState := by
  intro v s
  obtain ⟨t, hexec, heffect⟩ := exec_effect (.trap v) s
  refine ⟨t, hexec, fun r hr => heffect.reg_eq (regWritten_trap_ne (.inl hr)),
    fun h0 h3 => heffect.reg_eq (regWritten_trap_ne (.inr ⟨h0, h3⟩)), heffect.cond_eq rfl, heffect.pc_eq rfl,
    heffect.ir_eq, fun a hkbsr hkbdr => heffect.mem_read_eq (fun e => nomatch e) hkbsr hkbdr, fun h2 h4 a => ?_⟩
  rw [heffect.mem_eq_of_trap h2 h4]

/-- The fetch is one memory read: beside `ir` and `pc` it touches the console port and the keyboard cells alone. -/
theorem State.fetch_advances (s : State) : ConsoleAdvances s s.fetch :=
  (ConsoleFrame.memRead s s.pc).advances

theorem State.finishRead_advances (s : State) (w : Waiting) (b : Byte) : ConsoleAdvances s (s.finishRead w b) := by
  cases w with
  | getc => exact ⟨List.prefix_rfl, List.suffix_rfl⟩
  | inEcho => exact ⟨List.prefix_append _ _, List.suffix_rfl⟩

theorem State.resumeRead_advances (s : State) (w : Waiting) : ConsoleAdvances s (s.resumeRead w) := by
  obtain ⟨b, rest, hinput, e⟩ | ⟨-, e⟩ := s.resumeRead_cases w <;> rw [e]
  · have hconsume : ConsoleAdvances s { s with input := rest } := ⟨List.prefix_rfl, hinput ▸ List.suffix_cons b rest⟩
    exact hconsume.trans (State.finishRead_advances _ w b)
  · exact ⟨List.prefix_rfl, List.suffix_rfl⟩

/-- Settles O47: a step is a fetch and one of the ten ends, or a blocked read or a string going on. -/
theorem consoleBytesAreNeverTakenBackOrMadeUp : Obligations.ConsoleBytesAreNeverTakenBackOrMadeUp := by
  intro s t hstep
  have hadvances : ConsoleAdvances s t := by
    obtain ⟨-, hexec⟩ | ⟨w, -, rfl⟩ | ⟨form, a, -, rfl⟩ := step_cases hstep
    · exact s.fetch_advances.trans (effect_of_exec hexec).console_advances
    · exact s.resumeRead_advances w
    · exact (ConsoleFrame.printString s form a).advances
  obtain ⟨⟨written, hwritten⟩, ⟨consumed, hconsumed⟩⟩ := hadvances
  exact ⟨⟨written, hwritten.symm⟩, ⟨consumed, hconsumed.symm⟩⟩

/-! ### The flags -/

/-- With another `cond`, a flag-setting instruction does the same, for it overwrites `cond`. -/
theorem exec_with_cond_of_flagDest {i : Instr} {dr : Reg} (h : i.flagDest = some dr) (s : State) (c : BitVec 3) :
    exec i { s with cond := c } = exec i s := by
  have hload (u : State) (a : Word) : State.loadFrom { u with cond := c } dr a = u.loadFrom dr a := by
    rw [State.loadFrom, State.memRead_with_cond]
    rfl
  cases i <;> cases h
  case addReg => rfl
  case addImm => rfl
  case andReg => rfl
  case andImm => rfl
  case not => rfl
  case lea => rfl
  case ld off => exact congrArg Host.Outcome.next (hload s _)
  case ldr base off => exact congrArg Host.Outcome.next (hload s _)
  case ldi off =>
    rw [exec_ldi, State.memRead_with_cond, exec_ldi]
    exact congrArg Host.Outcome.next (hload _ _)

theorem State.awaitByte_with_cond (s : State) (w : Waiting) (c : BitVec 3) :
    State.awaitByte { s with cond := c } w = { s.awaitByte w with cond := c } := by
  obtain ⟨b, rest, hinput, e⟩ | ⟨hinput, e⟩ := s.awaitByte_cases w <;> rw [e]
  · rw [State.awaitByte_of_input (s := { s with cond := c }) hinput]
    cases w <;> rfl
  · exact State.awaitByte_of_empty (s := { s with cond := c }) hinput w

/-- The routine of R174 to R181, as the dispatcher calls it. -/
def TrapRoutine.call (routine : TrapRoutine) (s : State) : State :=
  match routine with
  | .getc => trapGetc s
  | .out => trapOut s
  | .puts => trapPuts s
  | .inEcho => trapIn s
  | .putsp => trapPutsp s
  | .halt => trapHalt s

theorem exec_trap_eq_call (v : Byte) (s : State) :
    exec (.trap v) s = .next ((trapRoutine v).elim s fun routine => routine.call s) := by
  change execTrap v s = _
  unfold execTrap
  cases trapRoutine v with
  | none => rfl
  | some routine => cases routine <;> rfl

theorem TrapRoutine.call_with_cond (routine : TrapRoutine) (s : State) (c : BitVec 3) :
    routine.call { s with cond := c } = { routine.call s with cond := c } := by
  cases routine with
  | getc => exact s.awaitByte_with_cond .getc c
  | out => rfl
  | puts => exact s.printString_with_cond c .puts _
  | inEcho => exact (s.consoleWriteAll Config.inPrompt).awaitByte_with_cond .inEcho c
  | putsp => exact s.printString_with_cond c .putsp _
  | halt => rfl

/-- With another `cond`, an instruction that sets no flags, BR apart, does the same to everything else. -/
theorem exec_with_cond_of_no_flagDest {i : Instr} (hflag : i.flagDest = none) (hbr : ∀ nzp off, i ≠ .br nzp off)
    {s t : State} (c : BitVec 3) (h : exec i s = .next t) :
    exec i { s with cond := c } = .next { t with cond := c } := by
  cases i <;> cases hflag
  case br nzp off => exact absurd rfl (hbr nzp off)
  case trap v =>
    rw [exec_trap_eq_call] at h ⊢
    obtain rfl := Host.Outcome.next.inj h
    cases trapRoutine v with
    | none => rfl
    | some routine => exact congrArg Host.Outcome.next (routine.call_with_cond s c)
  case sti sr base off =>
    obtain rfl := Host.Outcome.next.inj h
    rw [exec_sti, State.memRead_with_cond]
    rfl
  all_goals
    obtain rfl := Host.Outcome.next.inj h
    rfl

/-- Settles O42: a flag-setting instruction ends with a definition of DR, which overwrites `cond`; every other keeps it,
and BR alone looks at it. -/
theorem condIsWrittenBySevenInstructionsAndReadByBranchAlone :
    Obligations.CondIsWrittenBySevenInstructionsAndReadByBranchAlone := by
  intro i s
  obtain ⟨t, hexec, heffect⟩ := exec_effect i s
  refine ⟨t, hexec, heffect.cond_eq, fun dr hdest => ?_, fun hbr c => ?_⟩
  · obtain ⟨s1, v, hdefine⟩ := exec_of_flagDest hdest s
    obtain rfl := Host.Outcome.next.inj (hdefine.symm.trans hexec)
    rw [State.reg_define_self, State.define_cond, flagOf_eq_signFlag]
  · cases hdest : i.flagDest with
    | none => exact ⟨_, exec_with_cond_of_no_flagDest hdest hbr c hexec, rfl, fun _ => rfl, fun h => absurd rfl h⟩
    | some dr =>
      refine ⟨t, (exec_with_cond_of_flagDest hdest s c).trans hexec, rfl, fun hnone => ?_, fun _ => rfl⟩
      cases hnone

/-! ### The run state and the fetched word -/

/-- Settles O46: the fetch replaces the word, and its memory read does not look at it. -/
theorem fetchedWordDoesNotOutliveItsStep : Obligations.FetchedWordDoesNotOutliveItsStep := by
  intro s w hrun
  have hfetch : State.fetch { s with ir := w } = s.fetch := by
    rw [State.fetch_of_memRead (s.memRead_with_ir w s.pc)]
    rfl
  rw [step_of_running (s := { s with ir := w }) hrun, step_of_running hrun, hfetch]

/-- Settles O41, by the run state: a running core's instruction completes; the ended states are `step`'s three faults. -/
theorem stepIsTakenExactlyWhileTheRunGoesOn : Obligations.StepIsTakenExactlyWhileTheRunGoesOn := by
  intro s
  obtain ⟨t, hexec, -⟩ := exec_effect (decode s.fetch.ir) s.fetch
  cases hrun : s.run with
  | running =>
    have hstep : step s = .next t := (step_of_running hrun).trans hexec
    simp [hstep, RunState.live]
  | _ => simp [step, hrun, RunState.live]

theorem opcode_eq_res {i : Instr} (h : i.opcode = 0xD#4) : i = .res := by
  cases i with
  | res => rfl
  | _ => simp [Instr.opcode] at h

theorem opcode_eq_rti {i : Instr} (h : i.opcode = 0x8#4) : i = .rti := by
  cases i with
  | rti => rfl
  | _ => simp [Instr.opcode] at h

/-- How an instruction leaves the run state `Running`. -/
theorem Effect.run_cases {i : Instr} {s t : State} (h : Effect i s t) (hrun : s.run = .running) : t.run = .running ∨
    (∃ r, t.run = .fatal r ∧ i.opcode = r.cause.code) ∨ (t.run = .halted ∧ i = .trap 0x25#8) ∨
    (∃ w, t.run = .blocked w ∧ (i = .trap 0x20#8 ∨ i = .trap 0x23#8) ∧ t.input = []) := by
  cases h with
  | define dest reads v => exact .inl (reads.run.trans hrun)
  | store addr reads v => exact .inl (reads.run.trans hrun)
  | jump moves p => exact .inl hrun
  | link moves written v p => exact .inl hrun
  | fatal opcode => exact .inr (.inl ⟨_, rfl, opcode⟩)
  | write calls bs => exact .inl hrun
  | string calls => exact .inl ((s.printString_frame _ _).run.trans hrun)
  | read calls input bs => exact .inl hrun
  | block calls input w bs => exact .inr (.inr (.inr ⟨w, rfl, calls, input⟩))
  | halt calls => exact .inr (.inr (.inl ⟨rfl, calls⟩))

theorem fatal_of_opcode {i : Instr} {s t : State} (hop : i.opcode = 0xD#4 ∨ i.opcode = 0x8#4)
    (hexec : exec i s = .next t) : ∃ r, t.run = .fatal r := by
  obtain hop | hop := hop
  · rw [opcode_eq_res hop] at hexec
    obtain rfl := Host.Outcome.next.inj hexec
    exact ⟨_, rfl⟩
  · rw [opcode_eq_rti hop] at hexec
    obtain rfl := Host.Outcome.next.inj hexec
    exact ⟨_, rfl⟩

/-- Settles O48: of the ten ends, those of RES and RTI, HALT and a GETC or IN without a byte alone leave `Running`. -/
theorem runStateLeavesRunningOnlyAsListed : Obligations.RunStateLeavesRunningOnlyAsListed := by
  intro s t hrun hstep
  rw [step_of_running hrun] at hstep
  have hcases := (effect_of_exec hstep).run_cases (s.fetch_run.trans hrun)
  rw [← opcode_decode, ← s.fetch_ir]
  refine ⟨⟨?_, fun hop => fatal_of_opcode hop hstep⟩, ⟨fun hr => ?_, fun hhalt => ?_⟩, fun w hr => ?_,
    fun form a hr => ?_, fun hr => ?_⟩
  · rintro ⟨r, hr⟩
    have hop : (decode s.fetch.ir).opcode = r.cause.code := by simpa [hr] using hcases
    rw [hop]
    cases r.cause
    · exact .inl rfl
    · exact .inr rfl
  · simpa [hr] using hcases
  · rw [hhalt] at hstep
    obtain rfl := Host.Outcome.next.inj hstep
    rfl
  · simpa [hr] using hcases
  · simp [hr] at hcases
  · simp [hr] at hcases

end Sys2Proof.Machine
end

section
/-! The invariant (spec/10_state.md R25, spec/60_exceptions.md R200, R207): on a live state it is four facts, which every
way a live state goes on keeps; ending the run makes the other facts true. -/

namespace Sys2Proof.Machine

theorem flagOf_one_hot (v : Word) : flagOf v = flagN ∨ flagOf v = flagZ ∨ flagOf v = flagP := by
  unfold flagOf
  split
  · exact .inr (.inl rfl)
  · split
    · exact .inl rfl
    · exact .inr (.inr rfl)

/-- On a live state the facts about ended runs say nothing. -/
theorem Inv.of_live {s : State} (hlive : s.run.live = true) (wf : s.mem.wf = true)
    (flag : s.cond = flagN ∨ s.cond = flagZ ∨ s.cond = flagP) (raw : s.mode = .raw)
    (flushed : s.flushed ≤ s.output.length) : Inv s where
  mem_canonical := wf
  cond_one_hot := flag
  raw_while_live := by simp [raw, hlive]
  flushed_le := flushed
  halted_flushed hrun := nomatch hlive.symm.trans (congrArg RunState.live hrun)
  fatal_record _ hrun := nomatch hlive.symm.trans (congrArg RunState.live hrun)

section
variable {s t : State}

/-- A live state goes on to a live state, its mode and flush mark kept and its output growing. -/
theorem Inv.go_on (inv : Inv s) (hs : s.run.live = true) (ht : t.run.live = true) (wf : t.mem.wf = true)
    (flag : t.cond = flagN ∨ t.cond = flagZ ∨ t.cond = flagP) (mode : t.mode = s.mode)
    (flushed : t.flushed = s.flushed) (output : s.output <+: t.output) : Inv t :=
  Inv.of_live ht wf flag (mode.trans (inv.raw_while_live.mpr hs))
    (flushed ▸ inv.flushed_le.trans output.length_le)

/-- Ending the run restores the mode; what else an ended run must meet depends on how it ended. -/
theorem Inv.end_run (inv : Inv s) {r : RunState} (hend : r.live = false)
    (halted : r = .halted → s.flushed = s.output.length)
    (fatal : ∀ record, r = .fatal record →
      opcodeField record.instr = record.cause.code ∧ record.instr = s.ir ∧ record.pc = s.pc) : Inv (s.endRun r) where
  mem_canonical := inv.mem_canonical
  cond_one_hot := inv.cond_one_hot
  raw_while_live := by simp [hend]
  flushed_le := inv.flushed_le
  halted_flushed := halted
  fatal_record := fatal

theorem Inv.console_frame (inv : Inv s) (hlive : s.run.live = true) (h : ConsoleFrame s t) : Inv t :=
  inv.go_on hlive (h.run ▸ hlive) (h.wf inv.mem_canonical) (h.cond ▸ inv.cond_one_hot) h.mode h.flushed h.output_prefix

theorem Inv.fetch (inv : Inv s) (hlive : s.run.live = true) : Inv s.fetch :=
  have read := inv.console_frame hlive (ConsoleFrame.memRead s s.pc)
  Inv.of_live (s.fetch_run.symm ▸ hlive) read.mem_canonical read.cond_one_hot
    (s.fetch_mode.trans (inv.raw_while_live.mpr hlive)) read.flushed_le

/-- Every end of an instruction keeps the invariant. -/
theorem Inv.effect {i : Instr} (inv : Inv s) (hrun : s.run = .running) (hop : i.opcode = opcodeField s.ir)
    (h : Effect i s t) : Inv t := by
  have hlive : s.run.live = true := congrArg RunState.live hrun
  have wf := inv.mem_canonical
  have flag := inv.cond_one_hot
  cases h with
  | define dest reads v =>
    have inv1 := inv.console_frame hlive reads
    exact inv1.go_on (reads.run ▸ hlive) (reads.run ▸ hlive) inv1.mem_canonical (flagOf_one_hot v) rfl rfl
      List.prefix_rfl
  | store addr reads v =>
    have inv1 := inv.console_frame hlive reads
    exact inv1.go_on (reads.run ▸ hlive) (reads.run ▸ hlive) (State.memWrite_wf _ inv1.mem_canonical _ v)
      inv1.cond_one_hot rfl rfl List.prefix_rfl
  | jump moves p => exact inv.go_on hlive hlive wf flag rfl rfl List.prefix_rfl
  | link moves written v p => exact inv.go_on hlive hlive wf flag rfl rfl List.prefix_rfl
  | fatal opcode =>
    refine inv.end_run rfl (fun e => nomatch e) fun record e => ?_
    obtain rfl := RunState.fatal.inj e
    exact ⟨hop.symm.trans opcode, rfl, rfl⟩
  | write calls bs => exact inv.console_frame hlive (ConsoleFrame.consoleWriteAll s bs)
  | string calls => exact inv.console_frame hlive (ConsoleFrame.printString s _ _)
  | read calls input bs => exact inv.go_on hlive hlive wf flag rfl rfl (List.prefix_append _ _)
  | block calls input w bs => exact inv.go_on hlive rfl wf flag rfl rfl (List.prefix_append _ _)
  | halt calls =>
    have flushed : Inv s.consoleFlush := Inv.of_live hlive wf flag (inv.raw_while_live.mpr hlive) le_rfl
    exact flushed.end_run rfl (fun _ => rfl) (fun _ e => nomatch e)

theorem Inv.resumeRead (inv : Inv s) {w : Waiting} (hrun : s.run = .blocked w) : Inv (s.resumeRead w) := by
  have hlive : s.run.live = true := congrArg RunState.live hrun
  obtain ⟨b, rest, -, e⟩ | ⟨-, e⟩ := s.resumeRead_cases w <;> rw [e]
  · cases w with
    | getc => exact inv.go_on hlive rfl inv.mem_canonical inv.cond_one_hot rfl rfl List.prefix_rfl
    | inEcho => exact inv.go_on hlive rfl inv.mem_canonical inv.cond_one_hot rfl rfl (List.prefix_append _ _)
  · exact inv

/-- Changing a live run state for another is no matter of the invariant. -/
theorem Inv.with_run (inv : Inv s) (hlive : s.run.live = true) {r : RunState} (hr : r.live = true) :
    Inv { s with run := r } :=
  inv.go_on hlive hr inv.mem_canonical inv.cond_one_hot rfl rfl List.prefix_rfl

theorem Inv.resumePrint (inv : Inv s) {form : StringForm} {a : Word} (hrun : s.run = .printing form a) :
    Inv (s.resumePrint form a) := by
  have hlive : s.run.live = true := congrArg RunState.live hrun
  have frame := ConsoleFrame.printString s form a
  exact (inv.console_frame hlive frame).with_run (frame.run ▸ hlive) rfl

end

/-- Settles O51: a running core fetches and its instruction has one of the ten ends; a blocked read or a string under way
goes on. -/
theorem everyStepKeepsTheInvariant : Obligations.EveryStepKeepsTheInvariant := by
  intro s t inv hstep
  obtain ⟨hrun, hexec⟩ | ⟨w, hrun, rfl⟩ | ⟨form, a, hrun, rfl⟩ := step_cases hstep
  · have hlive : s.run.live = true := congrArg RunState.live hrun
    exact (inv.fetch hlive).effect (s.fetch_run.trans hrun) (opcode_decode _) (effect_of_exec hexec)
  · exact inv.resumeRead hrun
  · exact inv.resumePrint hrun

section
variable {s t : State}

theorem Inv.supply (inv : Inv s) (b : Byte) : Inv (s.supply b) :=
  ⟨inv.mem_canonical, inv.cond_one_hot, inv.raw_while_live, inv.flushed_le, inv.halted_flushed, inv.fatal_record⟩

theorem Inv.settleDraw (inv : Inv s) (ready : Bool) : Inv (s.settleDraw ready) :=
  ⟨inv.mem_canonical, inv.cond_one_hot, inv.raw_while_live, inv.flushed_le, inv.halted_flushed, inv.fatal_record⟩

theorem Inv.enterString (inv : Inv s) (h : s.enterString = some t) : Inv t := by
  obtain ⟨hrun, form, -, rfl⟩ := State.enterString_cases h
  have hlive : s.run.live = true := congrArg RunState.live hrun
  exact (inv.fetch hlive).with_run (s.fetch_run.symm ▸ hlive) rfl

theorem Inv.stringRead (inv : Inv s) (h : s.stringRead = some t) : Inv t := by
  obtain ⟨form, a, hrun, hcases⟩ := State.stringRead_cases h
  have hlive : s.run.live = true := congrArg RunState.live hrun
  have read := ConsoleFrame.memRead s a
  obtain ⟨-, rfl⟩ | ⟨-, rfl⟩ := hcases
  · exact (inv.console_frame hlive read).with_run (read.run ▸ hlive) rfl
  · have written := read.trans (ConsoleFrame.consoleWriteAll _ (form.bytes (s.memRead a).1))
    exact (inv.console_frame hlive written).with_run (written.run ▸ hlive) rfl

/-- An external break is taken by a running or a blocked core alone, and ends its run. -/
theorem State.externalBreak_cases (h : s.externalBreak = some t) :
    (s.run = .running ∨ ∃ w, s.run = .blocked w) ∧ t = s.endRun .aborted := by
  unfold State.externalBreak at h
  split at h
  · exact ⟨.inl (by assumption), (Option.some.inj h).symm⟩
  · exact ⟨.inr ⟨_, by assumption⟩, (Option.some.inj h).symm⟩
  all_goals cases h

theorem Inv.externalBreak (inv : Inv s) (h : s.externalBreak = some t) : Inv t := by
  obtain ⟨-, rfl⟩ := State.externalBreak_cases h
  exact inv.end_run rfl (fun e => nomatch e) (fun _ e => nomatch e)

end

/-- Settles O59, event by event. -/
theorem everyTransitionKeepsTheInvariant : Obligations.EveryTransitionKeepsTheInvariant := by
  intro e s t inv happens
  cases e with
  | step => exact everyStepKeepsTheInvariant s t inv happens
  | supply b =>
    obtain rfl := happens
    exact inv.supply b
  | settleDraw ready =>
    obtain rfl := happens
    exact inv.settleDraw ready
  | enterString => exact inv.enterString happens
  | stringRead => exact inv.stringRead happens
  | externalBreak => exact inv.externalBreak happens

end Sys2Proof.Machine
end

section
/-! From reset to the end of a run (spec/10_state.md R31, spec/60_exceptions.md R206, R207, spec/70_reset_and_hazards.md
R230). -/

namespace Sys2Proof.Machine

theorem Inv.resetWith (gprs : Vector Word 8) {cond : BitVec 3} {mem : Memory} (wf : mem.wf = true)
    (flag : cond = flagN ∨ cond = flagZ ∨ cond = flagP) : Inv (State.resetWith gprs cond mem) :=
  Inv.of_live rfl wf flag rfl le_rfl

/-- Settles O50: reset is a live state in raw mode that has written nothing. -/
theorem resetMeetsTheInvariant : Obligations.ResetMeetsTheInvariant :=
  ⟨fun gprs _ _ wf flag => Inv.resetWith gprs wf flag,
    Inv.resetWith _ State.reset_mem_wf (.inr (.inl rfl))⟩

/-- Settles O49: the fields of reset, register by register. -/
theorem resetStateIsAsSpecified : Obligations.ResetStateIsAsSpecified := by
  refine ⟨rfl, rfl, rfl, rfl, rfl, fun r => ?_, fun _ => rfl⟩
  exact Vector.getElem_replicate _

/-- Settles O52, by induction on the events since boot. -/
theorem everyReachableStateMeetsTheInvariant : Obligations.EveryReachableStateMeetsTheInvariant := by
  intro s hreach
  induction hreach with
  | boot flag canonical booted =>
    obtain ⟨-, m, hloaded, rfl⟩ := boot_started booted
    exact Inv.resetWith _ (loadImages_wf canonical hloaded) flag
  | event e before happens inv => exact everyTransitionKeepsTheInvariant e _ _ inv happens

/-- Settles O53, by the run state. -/
theorem externalBreakAbortsARunningOrBlockedCore : Obligations.ExternalBreakAbortsARunningOrBlockedCore := by
  intro s
  refine ⟨?_, fun form a hrun => ?_, fun hend => ?_⟩
  · rintro (hrun | ⟨w, hrun⟩) <;> rw [State.externalBreak, hrun] <;> rfl
  · rw [State.externalBreak, hrun]
  · cases hbreak : s.externalBreak with
    | none => rfl
    | some t =>
      obtain ⟨hrun | ⟨w, hrun⟩, -⟩ := State.externalBreak_cases hbreak <;> rw [hrun] at hend <;> cases hend

/-- An ended run takes no event but arriving input and settled answers. -/
theorem transition_of_ended {e : HostEvent} {s t : State} (hend : s.run.live = false) (h : Transition e s t) :
    (∃ b, t = s.supply b) ∨ ∃ ready, t = s.settleDraw ready := by
  cases e with
  | supply b => exact .inl ⟨b, h⟩
  | settleDraw ready => exact .inr ⟨ready, h⟩
  | step =>
    obtain ⟨hrun, -⟩ | ⟨w, hrun, -⟩ | ⟨form, a, hrun, -⟩ := step_cases h <;> rw [hrun] at hend <;> cases hend
  | enterString =>
    obtain ⟨hrun, -⟩ := State.enterString_cases h
    rw [hrun] at hend
    cases hend
  | stringRead =>
    obtain ⟨form, a, hrun, -⟩ := State.stringRead_cases h
    rw [hrun] at hend
    cases hend
  | externalBreak =>
    obtain ⟨hrun | ⟨w, hrun⟩, -⟩ := State.externalBreak_cases h <;> rw [hrun] at hend <;> cases hend

theorem Inv.mode_of_ended {s : State} (inv : Inv s) (hend : s.run.live = false) : s.mode = .original := by
  cases hmode : s.mode with
  | original => rfl
  | raw => cases hend.symm.trans (inv.raw_while_live.mp hmode)

/-- Settles O54: arriving input and settled answers touch neither the run state nor what the statement names. -/
theorem anEndedRunStaysEnded : Obligations.AnEndedRunStaysEnded := by
  intro e s t inv hend happens
  have hmode := inv.mode_of_ended hend
  obtain ⟨b, rfl⟩ | ⟨ready, rfl⟩ := transition_of_ended hend happens
  · exact ⟨rfl, hmode, hmode, rfl, fun _ => rfl, fun _ => rfl⟩
  · exact ⟨rfl, hmode, hmode, rfl, fun _ => rfl, fun _ => rfl⟩

/-- Settles O55: the codes are those of the run state's table, and the mode and the flush mark are the invariant's. -/
theorem exitCodesAreThoseOfTheExitPaths : Obligations.ExitCodesAreThoseOfTheExitPaths := by
  refine ⟨fun s inv => ⟨fun hrun => ?_, fun r hrun => ?_, fun hrun => ?_, fun hlive => ?_⟩, fun _ _ _ => rfl,
    fun _ _ => rfl⟩
  · exact ⟨congrArg RunState.exitCode hrun, inv.mode_of_ended (congrArg RunState.live hrun), inv.halted_flushed hrun⟩
  · exact ⟨inv.mode_of_ended (congrArg RunState.live hrun), _, congrArg RunState.exitCode hrun, fatalExitCode_ne_zero⟩
  · exact ⟨inv.mode_of_ended (congrArg RunState.live hrun), _, congrArg RunState.exitCode hrun⟩
  · refine ⟨?_, inv.raw_while_live.mpr hlive⟩
    cases hrun : s.run with
    | running => rfl
    | blocked w => rfl
    | printing form a => rfl
    | halted | fatal | aborted => rw [hrun] at hlive; cases hlive

end Sys2Proof.Machine
end

section
/-! The string routines (spec/43_trap.md R176 to R180): where their strings end and what they leave, taken whole or read
by read. -/

namespace Sys2Proof.Machine

theorem exec_puts (s : State) : exec (.trap 0x22#8) s = .next (s.printString .puts (s.reg argReg)) := rfl

theorem exec_putsp (s : State) : exec (.trap 0x24#8) s = .next (s.printString .putsp (s.reg argReg)) := rfl

/-- Settles O32: the routine has reads enough for every string of a canonical memory. -/
theorem stringTrapsRunToTheFirstZeroWord : Obligations.StringTrapsRunToTheFirstZeroWord := by
  intro s wf
  refine ⟨fun n t prints => ?_, fun n t prints => ?_, PrintsTo.ends wf .puts _, PrintsTo.ends wf .putsp _⟩
  · exact congrArg Host.Outcome.next (State.printString_eq wf prints)
  · exact congrArg Host.Outcome.next (State.printString_eq wf prints)

/-- A string of at most 65536 reads is within the routine's reads, whatever the memory. -/
theorem PrintsTo.printString_eq {form : StringForm} {a : Word} {s t : State} {n : Nat} (prints : PrintsTo form a s n t)
    (hn : n ≤ 65536) : s.printString form a = t :=
  prints.loop_eq _ (hn.trans (Nat.le_mul_of_pos_right 65536 s.input.length.succ_pos))

/-- Away from KBSR the words of a string are plainly read, and each writes its bytes. -/
theorem PrintsTo.of_words (form : StringForm) {ws : List Word} {a : Word} {s : State}
    (nonzero : ∀ w ∈ ws, w ≠ 0x0000#16)
    (words : ∀ (k : Nat) (w : Word), ws[k]? = some w → s.mem.read (a + BitVec.ofNat 16 k) = w)
    (ends : s.mem.read (a + BitVec.ofNat 16 ws.length) = 0x0000#16)
    (plain : ∀ k, k ≤ ws.length → a + BitVec.ofNat 16 k ≠ kbsrAddr) :
    PrintsTo form a s (ws.length + 1) (s.consoleWriteAll (ws.flatMap form.bytes)) := by
  have first : a + BitVec.ofNat 16 0 = a := BitVec.add_zero a
  have read : s.memRead a = (s.mem.read a, s) := s.memRead_of_ne_kbsrAddr (first ▸ plain 0 (Nat.zero_le _))
  induction ws generalizing a s with
  | nil =>
    have stop := PrintsTo.stop (form := form) (a := a) (s := s) (by rw [read, ← first]; exact ends)
    rw [read] at stop
    rwa [List.flatMap_nil, State.consoleWriteAll_nil]
  | cons w ws ih =>
    have word : s.mem.read a = w := first ▸ words 0 w rfl
    have rest := ih (a := a + 1) (s := s.consoleWriteAll (form.bytes w)) (fun v hv => nonzero v (.tail w hv))
      (fun k v hv => by rw [succ_add_ofNat]; exact words (k + 1) v hv) (by rw [succ_add_ofNat]; exact ends)
      (fun k hk => by rw [succ_add_ofNat]; exact plain (k + 1) (Nat.succ_le_succ hk))
      (BitVec.add_zero _) (State.memRead_of_ne_kbsrAddr _ (plain 1 (by simp)))
    refine .more (by rw [read, word]; exact nonzero w (.head ws)) ?_
    rw [read, word]
    have written : (s.consoleWriteAll (form.bytes w)).consoleWriteAll (ws.flatMap form.bytes) =
        s.consoleWriteAll ((w :: ws).flatMap form.bytes) := by
      simp [State.consoleWriteAll, List.append_assoc]
    exact written ▸ rest

/-- Settles O33, by the string's words one after another; PUTSP's bytes of a word are one or two. -/
theorem stringTrapsWriteTheBytesOfEachWord : Obligations.StringTrapsWriteTheBytesOfEachWord := by
  intro s ws hlength nonzero words ends plain
  have prints (form : StringForm) := (PrintsTo.of_words form nonzero words ends plain).printString_eq hlength
  constructor
  · have bytes : ws.flatMap StringForm.puts.bytes = ws.map lowByte := List.map_eq_flatMap.symm
    rw [exec_puts, argReg, prints .puts, bytes]
    rfl
  · rw [exec_putsp, argReg, prints .putsp]
    rfl

/-- A string ends at a zero word or before it, whatever polls do on the way: they touch the two keyboard cells alone. -/
theorem PrintsTo.ends_by_zero_word (form : StringForm) {j : Nat} {a : Word} {s : State}
    (zero : s.mem.read (a + BitVec.ofNat 16 j) = 0x0000#16) (plain : a + BitVec.ofNat 16 j ≠ kbsrAddr)
    (kbdr : a + BitVec.ofNat 16 j = kbdrAddr → ∀ i, i < j → a + BitVec.ofNat 16 i ≠ kbsrAddr) :
    ∃ n t, n ≤ j + 1 ∧ PrintsTo form a s n t := by
  induction j generalizing a s with
  | zero =>
    have first : a + BitVec.ofNat 16 0 = a := BitVec.add_zero a
    rw [first] at zero plain
    exact ⟨1, _, le_rfl, .stop (by rw [s.memRead_of_ne_kbsrAddr plain]; exact zero)⟩
  | succ j ih =>
    by_cases hzero : (s.memRead a).1 = 0x0000#16
    · exact ⟨1, _, by omega, .stop hzero⟩
    have kept : (s.memRead a).2.mem.read (a + BitVec.ofNat 16 (j + 1)) = s.mem.read (a + BitVec.ofNat 16 (j + 1)) := by
      by_cases hkbdr : a + BitVec.ofNat 16 (j + 1) = kbdrAddr
      · have ha : a ≠ kbsrAddr := BitVec.add_zero a ▸ kbdr hkbdr 0 j.succ_pos
        rw [s.memRead_of_ne_kbsrAddr ha]
      · exact s.memRead_read a plain hkbdr
    rw [← succ_add_ofNat] at zero plain kbdr kept
    obtain ⟨n, t, hn, prints⟩ := ih (a := a + 1) (s := (s.memRead a).2.consoleWriteAll (form.bytes (s.memRead a).1))
      (kept.trans zero) plain (fun h i hi => by rw [succ_add_ofNat]; exact kbdr h (i + 1) (Nat.succ_lt_succ hi))
    exact ⟨n + 1, t, Nat.succ_le_succ hn, .more hzero prints⟩

/-- Settles O34: the string that ends by the zero word is short enough to be the routine's. -/
theorem stringEndsWithinOnePassWhenAZeroWordExists : Obligations.StringEndsWithinOnePassWhenAZeroWordExists := by
  intro s j hj zero plain kbdr
  constructor
  · obtain ⟨n, t, hn, prints⟩ := PrintsTo.ends_by_zero_word .puts zero plain kbdr
    exact ⟨n, t, hn, prints, congrArg Host.Outcome.next (prints.printString_eq (hn.trans hj))⟩
  · obtain ⟨n, t, hn, prints⟩ := PrintsTo.ends_by_zero_word .putsp zero plain kbdr
    exact ⟨n, t, hn, prints, congrArg Host.Outcome.next (prints.printString_eq (hn.trans hj))⟩

/-! ### Whole and read by read -/

theorem PrintsTo.run_eq {form : StringForm} {a : Word} {s t : State} {n : Nat} (prints : PrintsTo form a s n t) :
    t.run = s.run := by
  rw [← prints.loop_eq n le_rfl]
  exact (State.stringLoop_frame form n a s).run

/-- The `printing` equation of `step`. -/
theorem step_of_printing {s : State} {form : StringForm} {a : Word} (hrun : s.run = .printing form a) :
    step s = .next (s.resumePrint form a) := by
  unfold step
  rw [hrun]

/-- A string under way ends in the state its loop leaves, the core running again. -/
theorem PrintsTo.step_atString {form : StringForm} {a : Word} {s t : State} {n : Nat} (wf : s.mem.wf = true)
    (prints : PrintsTo form a s n t) : step (s.atString form a) = .next { t with run := .running } := by
  have inside : (s.atString form a).printString form a = { t with run := .printing form a } :=
    State.printString_eq wf (prints.with_run (.printing form a))
  rw [step_of_printing rfl, State.resumePrint, inside]

theorem State.atString_of_run {s : State} {form : StringForm} {a : Word} (hrun : s.run = .printing form a) :
    s.atString form a = s := by
  rw [State.atString, ← hrun]

theorem exec_of_stringOf {i : Instr} {form : StringForm} (h : stringOf i = some form) (s : State) :
    exec i s = .next (s.printString form (s.reg argReg)) := by
  obtain ⟨rfl, rfl⟩ | ⟨rfl, rfl⟩ := stringOf_eq_some h
  · exact exec_puts s
  · exact exec_putsp s

theorem stringOf_trap_isSome_iff {v : Byte} : (stringOf (.trap v)).isSome = true ↔ v = 0x22#8 ∨ v = 0x24#8 := by
  by_cases h2 : v = 0x22#8
  · simp [stringOf, h2]
  · by_cases h4 : v = 0x24#8 <;> simp [stringOf, h2, h4]

/-- Settles O36: both views of the routine end in the one state that the string's relation names. -/
theorem longStringReturnsInTheStateItsLoopLeaves : Obligations.LongStringReturnsInTheStateItsLoopLeaves := by
  intro s wf
  refine ⟨fun u hu => ?_, fun form a n t hrun prints => ?_, fun hrun v hv => ?_⟩
  · obtain ⟨hrun, form, hform, rfl⟩ := State.enterString_cases hu
    have wf1 : s.fetch.mem.wf = true := s.memRead_wf s.pc wf
    obtain ⟨n, t, -, prints⟩ := PrintsTo.ends wf1 form (s.fetch.reg argReg)
    have running : t.run = .running := prints.run_eq.trans (s.fetch_run.trans hrun)
    have again : { t with run := .running } = t := by rw [← running]
    refine ⟨n, t, ?_, running, ?_, ?_⟩
    · rw [step_of_running hrun, exec_of_stringOf hform, State.printString_eq wf1 prints]
    · rw [prints.step_atString wf1, again]
    · rw [prints.stringReads_eq, again]
  · have inside := prints.step_atString wf
    have reads := prints.stringReads_eq
    rw [State.atString_of_run hrun] at inside reads
    exact ⟨inside, reads⟩
  · rw [State.enterString, if_pos hrun, Option.isSome_map, s.fetch_ir, hv, stringOf_trap_isSome_iff]

/-! ### The string that never ends -/

/-- No cell but KBSR, whose word is never read, holds zero. -/
def NoZeroWord (s : State) : Prop := ∀ z, z ≠ kbsrAddr → s.mem.read z ≠ 0x0000#16

/-- Inside a string with nothing supplied ahead, in a canonical memory without a zero word. -/
structure EndlessString (form : StringForm) (a : Word) (s : State) : Prop where
  wf : s.mem.wf = true
  run : s.run = .printing form a
  input : s.input = []
  draws : s.readyDraws = []
  nonzero : NoZeroWord s

theorem State.stringRead_of_nonzero {s : State} {form : StringForm} {a : Word} (hrun : s.run = .printing form a)
    (h : (s.memRead a).1 ≠ 0x0000#16) :
    s.stringRead = some (((s.memRead a).2.consoleWriteAll (form.bytes (s.memRead a).1)).atString form (a + 1)) := by
  unfold State.stringRead
  rw [hrun]
  exact if_neg h

theorem State.output_length_lt_of_read (s : State) (form : StringForm) (a w : Word) :
    s.output.length + 1 ≤ ((s.memRead a).2.consoleWriteAll (form.bytes w)).output.length := by
  rw [State.consoleWriteAll_output, List.length_append, State.memRead_output]
  exact Nat.add_le_add_left (form.bytes_pos w) _

section
variable {form : StringForm} {s0 s : State}

/-- Away from KBSR one read of an endless string leaves an endless string. -/
theorem EndlessString.read_plain {a : Word} (h : EndlessString form a s) (follows : Follows s0 s) (ha : a ≠ kbsrAddr) :
    ∃ t, Follows s0 t ∧ EndlessString form (a + 1) t ∧ s.output.length + 1 ≤ t.output.length := by
  have read := s.memRead_of_ne_kbsrAddr ha
  have turn := State.stringRead_of_nonzero h.run (by rw [read]; exact h.nonzero a ha)
  refine ⟨_, follows.event .stringRead turn, ?_, s.output_length_lt_of_read form a _⟩
  rw [read]
  exact ⟨h.wf, rfl, h.input, h.draws, h.nonzero⟩

/-- A read of KBSR whose poll finds a nonzero byte, the only one at hand, leaves an endless string. -/
theorem EndlessString.of_byte_at_kbsr {b : Byte} (wf : s.mem.wf = true) (hrun : s.run = .printing form kbsrAddr)
    (draws : s.readyDraws = [true]) (input : s.input = [b]) (hb : zext8 b ≠ 0x0000#16) (nonzero : NoZeroWord s) :
    ∃ t, s.stringRead = some t ∧ EndlessString form (kbsrAddr + 1) t ∧ s.output.length + 1 ≤ t.output.length := by
  have read := s.memRead_kbsr_of_ready wf (by rw [draws]; rfl) input
  have value : (s.memRead kbsrAddr).1 = 0x8000#16 := congrArg Prod.fst read
  refine ⟨_, State.stringRead_of_nonzero hrun (by rw [value]; decide),
    ⟨s.memRead_wf kbsrAddr wf, rfl, congrArg (fun p => p.2.input) read, ?_, fun z hz => ?_⟩,
    s.output_length_lt_of_read form kbsrAddr _⟩
  · have tail : (s.memRead kbsrAddr).2.readyDraws = s.readyDraws.tail := by
      rw [read]
      exact s.drawReady_readyDraws
    exact tail.trans (congrArg List.tail draws)
  · change (s.memRead kbsrAddr).2.mem.read z ≠ 0x0000#16
    by_cases hkbdr : z = kbdrAddr
    · have written : (s.memRead kbsrAddr).2.mem.read kbdrAddr = zext8 b := by
        rw [read]
        exact Memory.read_write_self (Memory.write_wf (s.drawReady_frame.2 ▸ wf) _ _) _ _
      rw [hkbdr, written]
      exact hb
    · rw [s.memRead_read kbsrAddr hz hkbdr]
      exact nonzero z hz

/-- At KBSR a byte that arrives in time, for a poll that finds it, keeps the string endless. -/
theorem EndlessString.read_kbsr (h : EndlessString form kbsrAddr s) (follows : Follows s0 s) :
    ∃ t, Follows s0 t ∧ EndlessString form (kbsrAddr + 1) t ∧ s.output.length + 1 ≤ t.output.length := by
  have arrived : Follows s0 ((s.supply 0x01#8).settleDraw true) :=
    (follows.event (.supply 0x01#8) rfl).event (.settleDraw true) rfl
  obtain ⟨t, turn, endless, output⟩ := EndlessString.of_byte_at_kbsr (s := (s.supply 0x01#8).settleDraw true)
    h.wf h.run (congrArg (· ++ [true]) h.draws) (congrArg (· ++ [0x01#8]) h.input) (by decide) h.nonzero
  exact ⟨t, arrived.event .stringRead turn, endless, output⟩

theorem EndlessString.reads {a : Word} (h : EndlessString form a s) (follows : Follows s0 s) (k : Nat) :
    ∃ t, Follows s0 t ∧ EndlessString form (a + BitVec.ofNat 16 k) t ∧ s.output.length + k ≤ t.output.length := by
  induction k generalizing a s with
  | zero => exact ⟨s, follows, (BitVec.add_zero a).symm ▸ h, le_rfl⟩
  | succ k ih =>
    obtain ⟨t, hfollows, hendless, houtput⟩ : ∃ t, Follows s0 t ∧ EndlessString form (a + 1) t ∧
        s.output.length + 1 ≤ t.output.length := by
      by_cases ha : a = kbsrAddr
      · subst ha
        exact h.read_kbsr follows
      · exact h.read_plain follows ha
    obtain ⟨u, hfollows', hendless', houtput'⟩ := ih hendless hfollows
    exact ⟨u, hfollows', succ_add_ofNat a k ▸ hendless', by omega⟩

end

/-- Settles O35, by induction on the reads: where one of them is of KBSR, a byte arrives just before it. -/
theorem stringWithoutAZeroWordKeepsTheCoreInItsRoutine :
    Obligations.StringWithoutAZeroWordKeepsTheCoreInItsRoutine := by
  intro form a s wf hrun hinput hdraws hnonzero k
  have endless : EndlessString form a s := ⟨wf, hrun, hinput, hdraws, hnonzero⟩
  obtain ⟨t, hfollows, hendless, houtput⟩ := endless.reads .refl k
  exact ⟨t, hfollows, hendless.run, houtput, hendless.nonzero⟩

end Sys2Proof.Machine
end

section
/-! The image loader and the boot sequence (spec/70_reset_and_hazards.md R231 to R236). -/

namespace Sys2Proof.Machine

/-- The bytes of a word in an image file, the most significant first (R232). -/
def imageBytes (w : Word) : List Byte := [w.extractLsb' 8 8, w.extractLsb' 0 8]

theorem placeWords_nil (a : Word) (m : Memory) : placeWords a [] m = m := by
  unfold placeWords
  rfl

theorem placeWords_cons_cons (a : Word) (hi lo : Byte) (rest : List Byte) (m : Memory) :
    placeWords a (hi :: lo :: rest) m = placeWords (a + 1) rest (m.write a (bigEndian hi lo)) := by
  rw [placeWords]

theorem placeWords_imageBytes (a w : Word) (ws : List Word) (m : Memory) :
    placeWords a ((w :: ws).flatMap imageBytes) m = placeWords (a + 1) (ws.flatMap imageBytes) (m.write a w) := by
  rw [List.flatMap_cons, imageBytes, List.cons_append, List.cons_append, List.nil_append, placeWords_cons_cons,
    bigEndian_bytes]

/-- A cell that no word of an image is placed in keeps its value. -/
theorem placeWords_read_of_ne {ws : List Word} {a b : Word} {m : Memory}
    (h : ∀ k, k < ws.length → b ≠ a + BitVec.ofNat 16 k) :
    (placeWords a (ws.flatMap imageBytes) m).read b = m.read b := by
  induction ws generalizing a m with
  | nil => rw [List.flatMap_nil, placeWords_nil]
  | cons w ws ih =>
    have first : b ≠ a := BitVec.add_zero a ▸ h 0 ws.length.succ_pos
    rw [placeWords_imageBytes, ih fun k hk => succ_add_ofNat a k ▸ h (k + 1) (Nat.succ_lt_succ hk),
      Memory.read_write_of_ne first]

/-- Word `k` of an image is found in its cell, unless a later word has wrapped round to it. -/
theorem placeWords_read {ws : List Word} {a : Word} {m : Memory} (wf : m.wf = true) {k : Nat} {w : Word}
    (hk : ws[k]? = some w) (hlast : ws.length - k ≤ 65536) :
    (placeWords a (ws.flatMap imageBytes) m).read (a + BitVec.ofNat 16 k) = w := by
  induction ws generalizing a m k with
  | nil => cases hk
  | cons v ws ih =>
    rw [placeWords_imageBytes]
    cases k with
    | zero =>
      obtain rfl : v = w := Option.some.inj hk
      have later (j : Nat) (hj : j < ws.length) : a ≠ a + 1 + BitVec.ofNat 16 j := by
        rw [succ_add_ofNat]
        have : j + 1 < 65536 := by
          simp only [List.length_cons] at hlast
          omega
        bv_omega
      rw [BitVec.add_zero, placeWords_read_of_ne later, Memory.read_write_self wf]
    | succ k =>
      rw [← succ_add_ofNat]
      refine ih (Memory.write_wf wf a v) hk ?_
      simpa using hlast

/-- Settles O56: the two bytes of the origin are read first, and the rest is placed from there. -/
theorem imageWordsArePlacedFromTheOrigin : Obligations.ImageWordsArePlacedFromTheOrigin := by
  intro origin ws m wf
  have loads : loadBytes ((origin :: ws).flatMap imageBytes) m = .ok (placeWords origin (ws.flatMap imageBytes) m) := by
    rw [List.flatMap_cons, imageBytes, List.cons_append, List.cons_append, List.nil_append, loadBytes, bigEndian_bytes]
  exact ⟨_, loads, placeWords_wf origin _ wf, fun k w hk hlast => placeWords_read wf hk hlast,
    fun b hb => placeWords_read_of_ne hb⟩

/-! ### The loader's errors -/

theorem loadBytes_of_length_lt {bytes : List Byte} (h : bytes.length < 2) (m : Memory) :
    loadBytes bytes m = .error .truncated := by
  match bytes, h with
  | [], _ => rfl
  | [_], _ => rfl

theorem loadBytes_of_length_ge {bytes : List Byte} (h : 2 ≤ bytes.length) (m : Memory) :
    ∃ hi lo rest, bytes = hi :: lo :: rest ∧ loadBytes bytes m = .ok (placeWords (bigEndian hi lo) rest m) := by
  match bytes, h with
  | hi :: lo :: rest, _ => exact ⟨hi, lo, rest, rfl, rfl⟩

/-- After a whole number of words a last byte is ignored. -/
theorem placeWords_append_odd_byte (a : Word) (bytes : List Byte) (b : Byte) (m : Memory)
    (heven : bytes.length % 2 = 0) : placeWords a (bytes ++ [b]) m = placeWords a bytes m := by
  fun_induction placeWords a bytes m with
  | case1 a hi lo rest m ih =>
    rw [List.cons_append, List.cons_append, placeWords_cons_cons]
    exact ih (by rw [List.length_cons, List.length_cons] at heven; omega)
  | case2 a m last => simp at heven
  | case3 a m =>
    unfold placeWords
    rfl

/-- Settles O57, by the number of bytes: fewer than two, two, or more. -/
theorem imageErrorsAreUnreadableAndTruncated : Obligations.ImageErrorsAreUnreadableAndTruncated := by
  refine ⟨fun _ _ => rfl, fun name bytes m => ?_, fun bytes b m heven hlength => ?_⟩
  · have opened : loadImage ⟨name, some bytes⟩ m = loadBytes bytes m := rfl
    rw [opened]
    by_cases hshort : bytes.length < 2
    · rw [loadBytes_of_length_lt hshort]
      simp [hshort, show bytes.length ≠ 2 by omega]
    · obtain ⟨hi, lo, rest, rfl, loads⟩ := loadBytes_of_length_ge (Nat.le_of_not_lt hshort) m
      rw [loads]
      refine ⟨rfl, ⟨fun e => (nomatch e), fun h => absurd h hshort⟩, fun e => (nomatch e), fun htwo => ?_⟩
      obtain rfl : rest = [] := by simpa using htwo
      rw [placeWords_nil]
  · obtain ⟨hi, lo, rest, rfl, loads⟩ := loadBytes_of_length_ge hlength m
    have hrest : rest.length % 2 = 0 := by
      rw [List.length_cons, List.length_cons] at heven
      omega
    rw [loads, List.cons_append, List.cons_append, loadBytes, placeWords_append_odd_byte _ rest b m hrest]

/-! ### Boot -/

theorem loadImages_append_ok {before : List ImageFile} {m m1 : Memory} (h : loadImages before m = .ok m1)
    (after : List ImageFile) : loadImages (before ++ after) m = loadImages after m1 := by
  induction before generalizing m with
  | nil =>
    obtain rfl := Except.ok.inj h
    rfl
  | cons f before ih =>
    simp only [List.cons_append, loadImages] at h ⊢
    split at h
    · exact ih h
    · cases h

theorem loadImages_cons_of_error {f : ImageFile} {m : Memory} {e : LoadError} (h : loadImage f m = .error e)
    (after : List ImageFile) : loadImages (f :: after) m = .error (f.name, e) := by
  rw [loadImages, h]

theorem loadImages_cons_of_ok {f : ImageFile} {m m1 : Memory} (h : loadImage f m = .ok m1) (after : List ImageFile) :
    loadImages (f :: after) m = loadImages after m1 := by
  rw [loadImages, h]

section
variable (gprs : Vector Word 8) (cond : BitVec 3) {images : List ImageFile} {m : Memory} (hne : images ≠ [])
include hne

theorem boot_of_ok {m1 : Memory} (h : loadImages images m = .ok m1) :
    boot gprs cond m images = .started (State.resetWith gprs cond m1) := by
  obtain ⟨f, rest, rfl⟩ := List.exists_cons_of_ne_nil hne
  rw [boot, h]
  rfl

theorem boot_of_error {name : String} {e : LoadError} (h : loadImages images m = .error (name, e)) :
    boot gprs cond m images = .loadFailed name e := by
  obtain ⟨f, rest, rfl⟩ := List.exists_cons_of_ne_nil hne
  rw [boot, h]

end

/-- Settles O58: the images before `f` leave `m1`, and `f` is loaded into that. -/
theorem bootLoadsTheImagesInOrderAndStartsAt3000 : Obligations.BootLoadsTheImagesInOrderAndStartsAt3000 := by
  intro gprs cond m m1 before after f
  refine ⟨rfl, rfl, fun loads => ⟨fun e fails => ?_, fun m2 succeeds => ?_, fun hne => ?_⟩⟩
  · apply boot_of_error gprs cond (by simp)
    rw [loadImages_append_ok loads, loadImages_cons_of_error fails]
  · have all : loadImages (before ++ [f]) m = .ok m2 := by
      rw [loadImages_append_ok loads, loadImages_cons_of_ok succeeds]
      rfl
    exact ⟨all, _, boot_of_ok gprs cond (by simp) all, rfl⟩
  · exact ⟨_, boot_of_ok gprs cond hne loads, rfl, rfl, rfl, rfl, rfl, rfl, rfl, rfl⟩

end Sys2Proof.Machine
end

section
/-! BR after `setcc` (spec/10_state.md R26, spec/41_control.md R120, spec/40_operate.md R100): the mask's bits against
the sign. -/

namespace Sys2Proof.Machine

theorem decode_of_opcode_zero {w : Word} (h : opcodeField w = 0x0#4) :
    decode w = .br (bits11to9 w) (pcOffset9Field w) := if_pos h

theorem and_flagN_ne_zero (nzp : BitVec 3) : nzp &&& flagN ≠ 0b000#3 ↔ nzp.getLsbD 2 = true := by
  decide +revert

theorem and_flagZ_ne_zero (nzp : BitVec 3) : nzp &&& flagZ ≠ 0b000#3 ↔ nzp.getLsbD 1 = true := by
  decide +revert

theorem and_flagP_ne_zero (nzp : BitVec 3) : nzp &&& flagP ≠ 0b000#3 ↔ nzp.getLsbD 0 = true := by
  decide +revert

/-- BR's test of a word's flag is a test of its sign: exactly one of the three signs is the word's. -/
theorem branchTaken_flagOf_iff (nzp : BitVec 3) (v : Word) : branchTaken nzp (flagOf v) = true ↔
    (nzp.getLsbD 2 = true ∧ v.toInt < 0) ∨ (nzp.getLsbD 1 = true ∧ v.toInt = 0) ∨
      (nzp.getLsbD 0 = true ∧ 0 < v.toInt) := by
  rw [branchTaken_iff, flagOf_eq_signFlag, signFlag]
  obtain hneg | hzero | hpos := lt_trichotomy v.toInt 0
  · rw [if_pos hneg, and_flagN_ne_zero]
    simp [hneg, hneg.ne, hneg.not_gt]
  · rw [if_neg hzero.not_lt, if_pos hzero, and_flagZ_ne_zero]
    simp [hzero]
  · rw [if_neg hpos.not_gt, if_neg hpos.ne', and_flagP_ne_zero]
    simp [hpos, hpos.ne', hpos.not_gt]

/-- Settles O60, by BR's two ends on the flag that `setcc` has just written. -/
theorem branchTestsTheSignOfTheLastDefinedValue : Obligations.BranchTestsTheSignOfTheLastDefinedValue := by
  refine ⟨⟨rfl, rfl, rfl⟩, fun w hop => decode_of_opcode_zero hop, fun nzp off v s => ?_⟩
  have htest := branchTaken_flagOf_iff nzp v
  by_cases htaken : branchTaken nzp (flagOf v) = true
  · rw [if_pos (htest.mp htaken)]
    exact exec_br_taken off htaken
  · rw [if_neg (mt htest.mpr htaken)]
    exact exec_br_not_taken off htaken

end Sys2Proof.Machine
end
